-- ==== Sys2Proof/Word.lean ====
section
/-! DEFINITION. The word of the machine: a signed 64-bit integer, Int64 (R6, R7, R36). -/

namespace Sys2Proof

/-- A memory word, an operand, an input or an output value: an `Int64` (R7). It is carried by 64 bits and
always read as the signed number `w.toInt` (DESIGN CHOICE, log 6: the carrier only, safe). -/
abbrev Word := BitVec 64

/-- A `UInt64` (R7): the instruction pointer and `fault_ip`. It is read as the number `p.toNat`. -/
abbrev Pointer := BitVec 64

/-- `v` is in `Int64`: -2^63 <= v <= 2^63 - 1 (R7). -/
abbrev InInt64 (v : Int) : Prop := -9223372036854775808 ≤ v ∧ v ≤ 9223372036854775807

end Sys2Proof
end

