-- ==== Sys2Proof/Config.lean ====
section
/-! DEFINITION. The implementation parameters of the block (R6). They are fixed for one engine; State carries
them, so that a statement over all states covers every value the spec leaves OPEN (log 2). -/

namespace Sys2Proof

/-- The result of an add or multiply outside `Int64` (R6, R81, D4). -/
inductive OverflowPolicy where
  /-- `FAULT`, this hardware's policy -/
  | fault
  /-- `WRAP`, the alternative -/
  | wrap
deriving DecidableEq, Repr

/-- The parameters of R6 that are not fixed by the spec. `none` in a capacity is 'unbounded'. -/
structure Config where
  /-- `MAX_MEM_LEN`: the largest memory a LOAD accepts -/
  maxMemLen : Nat
  /-- `IN_CAP`: how many values the input queue takes, consumed ones included -/
  inCap : Option Nat
  /-- `OUT_CAP`: how many values the output log takes -/
  outCap : Option Nat
  /-- `OVERFLOW_POLICY` -/
  overflow : OverflowPolicy
deriving DecidableEq, Repr

/-- This hardware: `OVERFLOW_POLICY = FAULT` and both capacities at their default, unbounded (R6). For the OPEN
`MAX_MEM_LEN` it names the largest value R6 allows (DESIGN CHOICE, log 2, unsafe). -/
def Config.thisHardware : Config where
  maxMemLen := 9223372036854775807
  inCap := none
  outCap := none
  overflow := .fault

end Sys2Proof
end

