-- ==== Sys2Proof/Machine/State.lean ====
section
/-! DEFINITION. Everything the spec gives one engine (10_state.md), as plain data, and its value after reset. -/

namespace Sys2Proof.Machine

/-- The status register `state` (R18). -/
inductive Status where
  /-- a step will execute the instruction at `ip` -/
  | running
  /-- the last step found no unread input; `ip` points at that input instruction -/
  | blocked
  /-- the halt opcode executed; terminal -/
  | finished
  /-- a fatal error occurred; terminal -/
  | faulted
deriving DecidableEq, Repr

/-- The fault codes of R104. -/
inductive FaultCode where
  /-- `NONE`, the reset value -/
  | noFault
  | unexpectedOpcode
  | unexpectedMode
  | address
  | overflow
  | outputFull
deriving DecidableEq, Repr

/-- A raised `Fault(code, info)` on its way to fault entry (R8, R69): never held between steps. -/
structure Trap where
  code : FaultCode
  info : Word
deriving DecidableEq, Repr

/-- Memory: `len` words (`MEM_LEN`, R35), of which `cells` lists those that are not 0, addresses strictly rising
(`Memory.wf`). A word in range that is not listed is 0; a word out of range does not exist (log 5). -/
structure Memory where
  len : Nat
  cells : List (Nat × Word)
deriving DecidableEq, Repr

/-- The state of one engine. The transient state of R30 has no value between steps and is no field (log 8). -/
structure State where
  /-- the parameters of R6; nothing writes them -/
  config : Config
  /-- `mem` and `MEM_LEN` (R28, R35) -/
  mem : Memory
  /-- the instruction pointer (R15) -/
  ip : Pointer
  /-- `state` (R18) -/
  status : Status
  /-- the input queue, consumed values included (R22) -/
  inq : List Word
  /-- the read cursor `in_cur` (R22) -/
  inCur : Nat
  /-- the output log, oldest first (R23) -/
  outlog : List Word
  /-- `fault_code` (R20) -/
  faultCode : FaultCode
  /-- `fault_ip` (R20) -/
  faultIp : Pointer
  /-- `fault_info` (R20) -/
  faultInfo : Word
deriving DecidableEq, Repr

/-- Why a step could stop with a fault outcome: never. Every fault of the spec has an entry (R106) that leaves a
state, so taking it is a next state (log 1); no one raises a fault outcome, and the type has no constructor. Safe:
nothing is hidden by it. -/
inductive Fault where
deriving DecidableEq, Repr

/-- Why a step could be refused. -/
inductive Refusal where
  /-- `exec` has no meaning for the instruction yet. Raised only by a refused arm of `exec`, of which there is
  none left. Safe: the machine stops where the hardware goes on. -/
  | notModelled (mnemonic : String)
deriving DecidableEq, Repr

/-- The machine right after reset (R31, R118): the engine a LOAD of the empty program constructs, with the
parameters of this hardware. Reset is construction from a program, and no program is given here, so memory has no
word (log 3). -/
def State.reset : State where
  config := Config.thisHardware
  mem := ⟨0, []⟩
  ip := 0
  status := .running
  inq := []
  inCur := 0
  outlog := []
  faultCode := .noFault
  faultIp := 0
  faultInfo := 0

end Sys2Proof.Machine
end

