-- ==== Sys2Proof/Machine/Memory.lean ====
section
/-! DEFINITION. The memory (20_memory.md): one read, one write, whole words only (R36). -/

namespace Sys2Proof.Machine

/-- The word listed at an address; a word that is not listed is 0. -/
def Memory.lookup : List (Nat × Word) → Nat → Word
  | [], _ => 0
  | (k, w) :: rest, a => if k = a then w else Memory.lookup rest a

/-- Puts a word in front of cells of higher addresses; 0 is not listed. -/
def Memory.consCell (a : Nat) (v : Word) (cells : List (Nat × Word)) : List (Nat × Word) :=
  if v = 0 then cells else (a, v) :: cells

/-- Writes one cell, keeping the addresses rising and listing no 0. -/
def Memory.insert : List (Nat × Word) → Nat → Word → List (Nat × Word)
  | [], a, v => Memory.consCell a v []
  | (k, w) :: rest, a, v =>
    if k < a then (k, w) :: Memory.insert rest a v
    else if k = a then Memory.consCell a v rest
    else Memory.consCell a v ((k, w) :: rest)

/-- `0 <= a < MEM_LEN`: the address names a word (R34, R35). -/
def Memory.inRange (m : Memory) (a : Int) : Bool := decide (0 ≤ a ∧ a < m.len)

/-- The word at an address, none where there is no such word (R34, R35). -/
def Memory.read (m : Memory) (a : Int) : Option Word :=
  if m.inRange a then some (Memory.lookup m.cells a.toNat) else none

/-- Memory with one word replaced, none where there is no such word (R8, R35). -/
def Memory.write (m : Memory) (a : Int) (v : Word) : Option Memory :=
  if m.inRange a then some ⟨m.len, Memory.insert m.cells a.toNat v⟩ else none

/-- The cells of words laid out from address `a` on. -/
def Memory.cellsFrom : Nat → List Word → List (Nat × Word)
  | _, [] => []
  | a, w :: ws => Memory.consCell a w (Memory.cellsFrom (a + 1) ws)

/-- The memory a program array is loaded into, word for word (R31, R118). -/
def Memory.ofWords (p : List Word) : Memory := ⟨p.length, Memory.cellsFrom 0 p⟩

/-- The canonical form: addresses strictly rising, no 0 listed, every listed address below `MEM_LEN`. -/
abbrev Memory.wf (m : Memory) : Prop :=
  m.cells.Pairwise (fun x y => x.1 < y.1) ∧ ∀ c ∈ m.cells, c.2 ≠ 0 ∧ c.1 < m.len

end Sys2Proof.Machine
end

