-- ==== Sys2Proof/Machine/Ops.lean ====
section
/-! DEFINITION. The named operations over the state: updates, memory access, the I/O channel, taking a fault,
construction. -/

namespace Sys2Proof.Machine

/-! ### Updates of one register -/

def State.withMem (m : Memory) (s : State) : State := { s with mem := m }
def State.withIp (p : Pointer) (s : State) : State := { s with ip := p }
def State.withStatus (st : Status) (s : State) : State := { s with status := st }
def State.withCursor (n : Nat) (s : State) : State := { s with inCur := n }
def State.withInput (q : List Word) (s : State) : State := { s with inq := q }
def State.withOutput (l : List Word) (s : State) : State := { s with outlog := l }

/-! ### Codes of the status port -/

/-- The numeric code of `state` (R18). -/
def Status.code : Status → Nat
  | .running => 0
  | .blocked => 1
  | .finished => 2
  | .faulted => 3

/-- The numeric code of `fault_code` (R104). -/
def FaultCode.code : FaultCode → Nat
  | .noFault => 0
  | .unexpectedOpcode => 1
  | .unexpectedMode => 2
  | .address => 3
  | .overflow => 4
  | .outputFull => 5

/-! ### Faults -/

/-- `Fault(ADDRESS, a)`: `fault_info` is the offending address as a signed value (R104). An address outside `Int64`
would be recorded modulo 2^64; none arises in a state that meets `State.Inv` (DESIGN CHOICE, log 7). -/
def addressTrap (a : Int) : Trap := ⟨.address, BitVec.ofInt 64 a⟩

/-- TAKING A FAULT (R76, R106): `ip` stays at the faulting instruction, the state becomes FAULTED, and the record
takes the code, the current `ip` and the info. Nothing else changes. There is no return from a fault (R107): the
only way on is `loadEngine`. -/
def takeFault (t : Trap) (s : State) : State :=
  { s with status := .faulted, faultCode := t.code, faultIp := s.ip, faultInfo := t.info }

/-- A fault raised by a host access (R95): taken as any other, but the record of an engine that is FAULTED already
keeps its first fault (R105). -/
def takeHostFault (t : Trap) (s : State) : State :=
  if s.status = .faulted then s else takeFault t s

/-- Ends the execution of an instruction: its state, or the fault it raised (R69 'on Fault'). -/
def finish (s : State) (r : Except Trap State) : Host.Outcome State Fault Refusal :=
  match r with
  | .ok t => .next t
  | .error t => .next (takeFault t s)

/-! ### Memory access -/

/-- `MemRead(a, 1)` (R8). -/
def memRead (a : Int) (s : State) : Except Trap Word :=
  match s.mem.read a with
  | some w => .ok w
  | none => .error (addressTrap a)

/-- `MemWrite(a, 1, v)` (R8). -/
def memWrite (a : Int) (v : Word) (s : State) : Except Trap State :=
  match s.mem.write a v with
  | some m => .ok (s.withMem m)
  | none => .error (addressTrap a)

/-- The write-target range check (R57, R80 item 5). -/
def checkTarget (a : Int) (s : State) : Except Trap Unit :=
  if s.mem.inRange a then .ok () else .error (addressTrap a)

/-! ### The I/O channel (R22 to R27) -/

/-- `InputAvailable()` (R24). -/
def inputAvailable (s : State) : Bool := decide (s.inCur < s.inq.length)

/-- `NextInput()` (R25): the value at the cursor, and the state with the cursor past it. There is none when no
unread value exists, where R25 does not allow its use. -/
def nextInput (s : State) : Option (Word × State) :=
  match s.inq[s.inCur]? with
  | some v => some (v, s.withCursor (s.inCur + 1))
  | none => none

/-- `Emit(v)` (R26). -/
def emit (v : Word) (s : State) : Except Trap State :=
  if s.config.outCap = some s.outlog.length then .error ⟨.outputFull, v⟩
  else .ok (s.withOutput (s.outlog ++ [v]))

/-- `PushInput(v)` (R27): none where the push is refused. -/
def pushInput (v : Word) (s : State) : Option State :=
  if s.config.inCap = some s.inq.length then none
  else if s.status = .blocked then some ((s.withInput (s.inq ++ [v])).withStatus .running)
  else some (s.withInput (s.inq ++ [v]))

/-! ### Construction, the only reset (R93, R118, R119) -/

/-- `LOAD(p)` (R93): the engine constructed from a program array, none where it is larger than `MAX_MEM_LEN`. -/
def loadEngine (c : Config) (p : List Word) : Option State :=
  if p.length > c.maxMemLen then none
  else some {
    config := c
    mem := Memory.ofWords p
    ip := 0
    status := .running
    inq := []
    inCur := 0
    outlog := []
    faultCode := .noFault
    faultIp := 0
    faultInfo := 0 }

end Sys2Proof.Machine
end

