-- ==== Sys2Proof/Machine/Flags.lean ====
section
/-! DEFINITION. The engine has no flags (R29). Here stand the two computations that play their part: the range check
of a sum or product (R81), and the word a comparison writes (R89, R90). -/

namespace Sys2Proof.Machine

/-- `wrap64(r)` (R81): the word congruent to `r` modulo 2^64. -/
def wrap64 (r : Int) : Word := BitVec.ofInt 64 r

/-- The range check of an exact result (R81): in `Int64` it is the result; otherwise the policy decides. -/
def narrow (p : OverflowPolicy) (r : Int) : Except Trap Word :=
  if InInt64 r then .ok (BitVec.ofInt 64 r)
  else match p with
    | .fault => .error ⟨.overflow, wrap64 r⟩
    | .wrap => .ok (wrap64 r)

/-- The outcome of a comparison as a word: 1 or 0 (R29). -/
def truthWord (b : Bool) : Word := if b then 1 else 0

end Sys2Proof.Machine
end

