-- ==== Sys2Proof/Syntax.lean ====
section
/-! DEFINITION. The nine instructions (R58), their operands, and the assembly notation of R64 and R66. -/

namespace Sys2Proof

/-- The addressing mode of an argument (R2, R21). -/
inductive Mode where
  /-- digit 0: the argument word is an address -/
  | position
  /-- digit 1: the argument word is the value -/
  | immediate
deriving DecidableEq, Repr

/-- A read argument: its mode and its word as it stands in memory (`raw_k`, R9). -/
structure Operand where
  mode : Mode
  raw : Word
deriving DecidableEq, Repr

/-- A write target: its argument word is the raw destination address; its digit is kept as spelled and has no
effect (R57, R67). -/
structure Target where
  digit : Mode
  raw : Word
deriving DecidableEq, Repr

/-- The instructions, one constructor per row of spec/opcode_table.json (R58). -/
inductive Instr where
  /-- ADD, opcode 1 (R82) -/
  | add (a b : Operand) (c : Target)
  /-- MUL, opcode 2 (R83) -/
  | mul (a b : Operand) (c : Target)
  /-- IN, opcode 3 (R84) -/
  | inp (a : Target)
  /-- OUT, opcode 4 (R85) -/
  | out (a : Operand)
  /-- JNZ, opcode 5 (R87) -/
  | jnz (a b : Operand)
  /-- JZ, opcode 6 (R88) -/
  | jz (a b : Operand)
  /-- LT, opcode 7 (R89) -/
  | lt (a b : Operand) (c : Target)
  /-- EQ, opcode 8 (R90) -/
  | eq (a b : Operand) (c : Target)
  /-- HALT, opcode 99 (R91) -/
  | halt
deriving DecidableEq, Repr

/-- An instruction as bare decimal fields, not yet checked: its opcode, the mode digits it spells (argument 1
first) and its argument words (R46). -/
structure Fields where
  opcode : Nat
  digits : List Nat
  args : List Word
deriving DecidableEq, Repr

/-! ### Assembly notation (R64, R66) -/

/-- A label's name. -/
abbrev Label := List Char

/-- What stands inside `#...` or `[...]`: a number or a label (R64). -/
inductive AsmValue where
  | num (n : Int)
  | label (l : Label)
deriving DecidableEq, Repr

/-- `#n` or `[n]` (R64). -/
inductive AsmOperand where
  | imm (v : AsmValue)
  | pos (v : AsmValue)
deriving DecidableEq, Repr

/-- One line of a listing: a label, a `DATA` word, an instruction (its write target always `[v]`), or a
pseudo-instruction (R64, R66). -/
inductive AsmLine where
  | label (l : Label)
  | data (n : Int)
  | add (a b : AsmOperand) (c : AsmValue)
  | mul (a b : AsmOperand) (c : AsmValue)
  | inp (a : AsmValue)
  | out (a : AsmOperand)
  | jnz (a b : AsmOperand)
  | jz (a b : AsmOperand)
  | lt (a b : AsmOperand) (c : AsmValue)
  | eq (a b : AsmOperand) (c : AsmValue)
  | halt
  | jmp (t : AsmOperand)
  | mov (src : AsmOperand) (d : AsmValue)
  | clr (d : AsmValue)
  | nop
deriving DecidableEq, Repr

end Sys2Proof
end

