-- ==== Sys2Proof/WellFormed.lean ====
section
/-! DEFINITION. The checks on terms: bare instruction fields, configurations, assembly programs. -/

namespace Sys2Proof

/-- The mode digit that spells a mode (R52). -/
def Mode.digit : Mode → Nat
  | .position => 0
  | .immediate => 1

/-- The arity of each opcode of the table (R49); `none` for every other value (R59). -/
def arityOf : Nat → Option Nat
  | 1 | 2 | 7 | 8 => some 3
  | 3 | 4 => some 1
  | 5 | 6 => some 2
  | 99 => some 0
  | _ => none

/-- Bare fields are well formed: the opcode is in the table (R59), one digit is spelled for each argument and no
more (R51, R53), each digit is 0 or 1 (R52), and one argument word stands for each argument (R47). -/
def Fields.wellFormed (f : Fields) : Bool :=
  match arityOf f.opcode with
  | none => false
  | some n => f.digits.length == n && f.digits.all (· ≤ 1) && f.args.length == n

/-- The bare fields of an instruction (R49, R58). -/
def Instr.fields : Instr → Fields
  | .add a b c => ⟨1, [a.mode.digit, b.mode.digit, c.digit.digit], [a.raw, b.raw, c.raw]⟩
  | .mul a b c => ⟨2, [a.mode.digit, b.mode.digit, c.digit.digit], [a.raw, b.raw, c.raw]⟩
  | .inp a => ⟨3, [a.digit.digit], [a.raw]⟩
  | .out a => ⟨4, [a.mode.digit], [a.raw]⟩
  | .jnz a b => ⟨5, [a.mode.digit, b.mode.digit], [a.raw, b.raw]⟩
  | .jz a b => ⟨6, [a.mode.digit, b.mode.digit], [a.raw, b.raw]⟩
  | .lt a b c => ⟨7, [a.mode.digit, b.mode.digit, c.digit.digit], [a.raw, b.raw, c.raw]⟩
  | .eq a b c => ⟨8, [a.mode.digit, b.mode.digit, c.digit.digit], [a.raw, b.raw, c.raw]⟩
  | .halt => ⟨99, [], []⟩

/-- An instruction is well formed when its bare fields are. The types of `Instr` leave nothing else to check:
every term passes (`Laws.WellFormedFields`). -/
def Instr.wellFormed (i : Instr) : Bool := i.fields.wellFormed

/-- The parameters are in the ranges R6 gives: 1 <= `MAX_MEM_LEN` <= 2^63 - 1. -/
abbrev Config.wf (c : Config) : Prop := 1 ≤ c.maxMemLen ∧ c.maxMemLen ≤ 9223372036854775807

/-! ### Assembly programs -/

/-- The labels a listing defines, in order. -/
def definedLabels : List AsmLine → List Label
  | [] => []
  | .label l :: rest => l :: definedLabels rest
  | _ :: rest => definedLabels rest

/-- A value is usable: a number in `Int64` (R7) or a label that the listing defines (R64). -/
def AsmValue.wellFormed (labels : List Label) : AsmValue → Bool
  | .num n => decide (InInt64 n)
  | .label l => labels.contains l

/-- An operand is usable when its value is. -/
def AsmOperand.wellFormed (labels : List Label) : AsmOperand → Bool
  | .imm v => v.wellFormed labels
  | .pos v => v.wellFormed labels

/-- A line is usable: every value in it is. -/
def AsmLine.wellFormed (labels : List Label) : AsmLine → Bool
  | .label _ => true
  | .data n => decide (InInt64 n)
  | .add a b c | .mul a b c | .lt a b c | .eq a b c =>
    a.wellFormed labels && b.wellFormed labels && c.wellFormed labels
  | .inp a => a.wellFormed labels
  | .out a => a.wellFormed labels
  | .jnz a b | .jz a b => a.wellFormed labels && b.wellFormed labels
  | .halt => true
  | .jmp t => t.wellFormed labels
  | .mov src d => src.wellFormed labels && d.wellFormed labels
  | .clr d => d.wellFormed labels
  | .nop => true

/-- A listing is well formed: no label is defined twice and every line is usable (R64). -/
def asmWellFormed (p : List AsmLine) : Bool :=
  decide (definedLabels p).Nodup && p.all (·.wellFormed (definedLabels p))

end Sys2Proof
end

