-- ==== Sys2Proof/Decode.lean ====
section
/-! DEFINITION. The decoder, total on every word and every list of words (R60), and after it the encoder (R65). -/

namespace Sys2Proof

/-- Why a list of words is no instruction. The first two carry the instruction word (R60); the third the index of
the first word that is missing (0 is the instruction word, k is argument k). -/
inductive DecodeError where
  /-- negative word, or opcode outside the table (R54, R59) -/
  | unexpectedOpcode (w : Word)
  /-- a mode digit other than 0 and 1, or a digit beyond the arity (R52, R53) -/
  | unexpectedMode (w : Word)
  /-- the words end before the instruction does -/
  | truncated (k : Nat)
deriving DecidableEq, Repr

/-- What `Decode(w)` of R60 answers: the opcode with its mode stack, argument 1 first. -/
inductive Head where
  | add (m1 m2 m3 : Mode)
  | mul (m1 m2 m3 : Mode)
  | inp (m1 : Mode)
  | out (m1 : Mode)
  | jnz (m1 m2 : Mode)
  | jz (m1 m2 : Mode)
  | lt (m1 m2 m3 : Mode)
  | eq (m1 m2 m3 : Mode)
  | halt
deriving DecidableEq, Repr

/-- The number of argument words (R49). -/
def Head.arity : Head → Nat
  | .add .. | .mul .. | .lt .. | .eq .. => 3
  | .inp .. | .out .. => 1
  | .jnz .. | .jz .. => 2
  | .halt => 0

/-- `digit_k(n)` (R7): the k-th decimal digit, 0 the least significant. -/
def digit (k n : Nat) : Nat := n / 10 ^ k % 10

/-- The mode a digit spells; any digit but 0 and 1 is none (R52). -/
def modeOf : Nat → Option Mode
  | 0 => some .position
  | 1 => some .immediate
  | _ => none

/-- Modes of an instruction with no argument, from `md = w div 100`: no digit may be spelled (R53). -/
def noModes (w : Word) (md : Nat) (h : Head) : Except DecodeError Head :=
  if md ≥ 1 then .error (.unexpectedMode w) else .ok h

/-- The mode of one argument: digit 0 of `md` (R50), after the check of R53. -/
def oneMode (w : Word) (md : Nat) (h : Mode → Head) : Except DecodeError Head :=
  if md ≥ 10 then .error (.unexpectedMode w)
  else match modeOf (digit 0 md) with
    | some m1 => .ok (h m1)
    | none => .error (.unexpectedMode w)

/-- The modes of two arguments: digits 0 and 1 of `md` (R50), after the check of R53. -/
def twoModes (w : Word) (md : Nat) (h : Mode → Mode → Head) : Except DecodeError Head :=
  if md ≥ 100 then .error (.unexpectedMode w)
  else match modeOf (digit 0 md), modeOf (digit 1 md) with
    | some m1, some m2 => .ok (h m1 m2)
    | _, _ => .error (.unexpectedMode w)

/-- The modes of three arguments: digits 0, 1 and 2 of `md` (R50), after the check of R53. -/
def threeModes (w : Word) (md : Nat) (h : Mode → Mode → Mode → Head) : Except DecodeError Head :=
  if md ≥ 1000 then .error (.unexpectedMode w)
  else match modeOf (digit 0 md), modeOf (digit 1 md), modeOf (digit 2 md) with
    | some m1, some m2, some m3 => .ok (h m1 m2 m3)
    | _, _, _ => .error (.unexpectedMode w)

/-- `Decode` of a non-negative instruction word `n` (R60): the opcode is `n mod 100` (R48), checked against the
table (R58, R59) before the modes in `n div 100`. -/
def decodeNat (w : Word) (n : Nat) : Except DecodeError Head :=
  match n % 100 with
  | 1 => threeModes w (n / 100) .add
  | 2 => threeModes w (n / 100) .mul
  | 3 => oneMode w (n / 100) .inp
  | 4 => oneMode w (n / 100) .out
  | 5 => twoModes w (n / 100) .jnz
  | 6 => twoModes w (n / 100) .jz
  | 7 => threeModes w (n / 100) .lt
  | 8 => threeModes w (n / 100) .eq
  | 99 => noModes w (n / 100) .halt
  | _ => .error (.unexpectedOpcode w)

/-- `Decode(w)` of R60: a negative word is an unexpected opcode (R54). -/
def decodeHead (w : Word) : Except DecodeError Head :=
  if w.toInt < 0 then .error (.unexpectedOpcode w) else decodeNat w w.toInt.toNat

/-- The instruction of a decoded head, its argument words asked for in increasing order (R73): `arg k` gives
argument word k or the reason there is none. -/
def Head.complete {ε : Type} (arg : Nat → Except ε Word) : Head → Except ε Instr
  | .add m1 m2 m3 => do
    let a ← arg 1
    let b ← arg 2
    let c ← arg 3
    return .add ⟨m1, a⟩ ⟨m2, b⟩ ⟨m3, c⟩
  | .mul m1 m2 m3 => do
    let a ← arg 1
    let b ← arg 2
    let c ← arg 3
    return .mul ⟨m1, a⟩ ⟨m2, b⟩ ⟨m3, c⟩
  | .inp m1 => do
    let a ← arg 1
    return .inp ⟨m1, a⟩
  | .out m1 => do
    let a ← arg 1
    return .out ⟨m1, a⟩
  | .jnz m1 m2 => do
    let a ← arg 1
    let b ← arg 2
    return .jnz ⟨m1, a⟩ ⟨m2, b⟩
  | .jz m1 m2 => do
    let a ← arg 1
    let b ← arg 2
    return .jz ⟨m1, a⟩ ⟨m2, b⟩
  | .lt m1 m2 m3 => do
    let a ← arg 1
    let b ← arg 2
    let c ← arg 3
    return .lt ⟨m1, a⟩ ⟨m2, b⟩ ⟨m3, c⟩
  | .eq m1 m2 m3 => do
    let a ← arg 1
    let b ← arg 2
    let c ← arg 3
    return .eq ⟨m1, a⟩ ⟨m2, b⟩ ⟨m3, c⟩
  | .halt => .ok .halt

/-- Argument word k of the words that follow the instruction word. -/
def argIn (ws : List Word) (k : Nat) : Except DecodeError Word :=
  match ws[k - 1]? with
  | some w => .ok w
  | none => .error (.truncated k)

/-- Reads one instruction from the front of a list of words and answers it with the words that follow it (R46,
R47, R60). -/
def decode : List Word → Except DecodeError (Instr × List Word)
  | [] => .error (.truncated 0)
  | w :: ws => do
    let h ← decodeHead w
    let i ← h.complete (argIn ws)
    return (i, ws.drop h.arity)

/-! ### The encoder -/

/-- The instruction word, as a decimal number: `op + 100*m1 + 1000*m2 + 10000*m3` (R65, R82 to R91). A write
target's digit is encoded as it is spelled (R67). -/
def Instr.head : Instr → Nat
  | .add a b c => 1 + 100 * a.mode.digit + 1000 * b.mode.digit + 10000 * c.digit.digit
  | .mul a b c => 2 + 100 * a.mode.digit + 1000 * b.mode.digit + 10000 * c.digit.digit
  | .inp a => 3 + 100 * a.digit.digit
  | .out a => 4 + 100 * a.mode.digit
  | .jnz a b => 5 + 100 * a.mode.digit + 1000 * b.mode.digit
  | .jz a b => 6 + 100 * a.mode.digit + 1000 * b.mode.digit
  | .lt a b c => 7 + 100 * a.mode.digit + 1000 * b.mode.digit + 10000 * c.digit.digit
  | .eq a b c => 8 + 100 * a.mode.digit + 1000 * b.mode.digit + 10000 * c.digit.digit
  | .halt => 99

/-- The argument words, in operand order (R65). -/
def Instr.args : Instr → List Word
  | .add a b c | .mul a b c | .lt a b c | .eq a b c => [a.raw, b.raw, c.raw]
  | .inp a => [a.raw]
  | .out a => [a.raw]
  | .jnz a b | .jz a b => [a.raw, b.raw]
  | .halt => []

/-- The words of an instruction (R46, R65). -/
def encode (i : Instr) : List Word := BitVec.ofNat 64 i.head :: i.args

/-- The number of words of an instruction: 1 + arity (R47). -/
def Instr.length (i : Instr) : Nat := 1 + i.args.length

/-- The instruction as the assembler writes it: digit 0 in a write target's place (R65, R67). -/
def Instr.canonical : Instr → Instr
  | .add a b c => .add a b ⟨.position, c.raw⟩
  | .mul a b c => .mul a b ⟨.position, c.raw⟩
  | .inp a => .inp ⟨.position, a.raw⟩
  | .out a => .out a
  | .jnz a b => .jnz a b
  | .jz a b => .jz a b
  | .lt a b c => .lt a b ⟨.position, c.raw⟩
  | .eq a b c => .eq a b ⟨.position, c.raw⟩
  | .halt => .halt

/-! ### The host's numbering of a table word -/

/-- Word k of an instruction whose bits are `w`, `nbits` of them: bit 0 of `w` is bit 0 of the instruction word,
64 bits to a word, and every bit from `nbits` on is 0 (log 4). -/
def tableWord (nbits w k : Nat) : Word := BitVec.ofNat 64 (w % 2 ^ nbits / 2 ^ (64 * k))

/-- The four words (the longest instruction, R47) of such an instruction. -/
def tableWords (nbits w : Nat) : List Word :=
  [tableWord nbits w 0, tableWord nbits w 1, tableWord nbits w 2, tableWord nbits w 3]

/-- The instruction the decoder reads from a table word. -/
def decodeTableWord (nbits w : Nat) : Option Instr :=
  match decode (tableWords nbits w) with
  | .ok (i, _) => some i
  | .error _ => none

end Sys2Proof
end

