-- ==== Sys2Proof/Machine/Operands.lean ====
section
/-! DEFINITION. The operand forms: the parameter resolver and the write target (30_encoding.md section 3). -/

namespace Sys2Proof.Machine

/-- `Resolve(mode, raw)` (R55): a Position argument word is an address that is read, an Immediate one is the
value. -/
def resolve (o : Operand) (s : State) : Except Trap Word :=
  match o.mode with
  | .position => memRead o.raw.toInt s
  | .immediate => .ok o.raw

/-- The destination address of a write target: its argument word, whatever its digit (R57). -/
def targetAddress (c : Target) : Int := c.raw.toInt

/-- The address an instruction may write in memory; none for an instruction that writes no memory (R49). -/
def writeAddress : Instr → Option Int
  | .add _ _ c | .mul _ _ c | .lt _ _ c | .eq _ _ c => some (targetAddress c)
  | .inp a => some (targetAddress a)
  | .out _ | .jnz _ _ | .jz _ _ | .halt => none

end Sys2Proof.Machine
end

