-- ==== Sys2Proof/Machine/Arithmetic.lean ====
section
/-! DEFINITION. The arithmetic instructions (41_arithmetic.md), and the shape they share with the comparisons. -/

namespace Sys2Proof.Machine

/-- The execute phase of ADD, MUL, LT and EQ (R82, R83, R89, R90), in the order of R80: operands 1 and 2 resolved,
the write target checked, the result computed from the operands' signed values, the one write, the `ip`. -/
def writeResult (a b : Operand) (c : Target) (f : Int → Int → Except Trap Word) (s : State) :
    Except Trap State := do
  let x ← resolve a s
  let y ← resolve b s
  checkTarget (targetAddress c) s
  let r ← f x.toInt y.toInt
  let t ← memWrite (targetAddress c) r s
  return t.withIp (s.ip + 4)

/-- `Execute_ADD` (R82). -/
def execAdd (a b : Operand) (c : Target) (s : State) : Host.Outcome State Fault Refusal :=
  finish s (writeResult a b c (fun x y => narrow s.config.overflow (x + y)) s)

/-- `Execute_MUL` (R83). -/
def execMul (a b : Operand) (c : Target) (s : State) : Host.Outcome State Fault Refusal :=
  finish s (writeResult a b c (fun x y => narrow s.config.overflow (x * y)) s)

end Sys2Proof.Machine
end

