-- ==== Sys2Proof/Machine/Channel.lean ====
section
/-! DEFINITION. The I/O channel instructions (42_io_channel.md). -/

namespace Sys2Proof.Machine

/-- The execute phase of IN (R84): the write target is checked before the availability of input (R80), and with no
unread input the engine blocks, `ip` left at this instruction. -/
def readInput (c : Target) (s : State) : Except Trap State := do
  checkTarget (targetAddress c) s
  match nextInput s with
  | none => return s.withStatus .blocked
  | some (v, t) =>
    let u ← memWrite (targetAddress c) v t
    return u.withIp (s.ip + 2)

/-- The execute phase of OUT (R85). -/
def writeOutput (a : Operand) (s : State) : Except Trap State := do
  let v ← resolve a s
  let t ← emit v s
  return t.withIp (s.ip + 2)

/-- `Execute_IN` (R84). -/
def execInp (a : Target) (s : State) : Host.Outcome State Fault Refusal :=
  finish s (readInput a s)

/-- `Execute_OUT` (R85). -/
def execOut (a : Operand) (s : State) : Host.Outcome State Fault Refusal :=
  finish s (writeOutput a s)

end Sys2Proof.Machine
end

