-- ==== Sys2Proof/Machine/Compare.lean ====
section
/-! DEFINITION. The comparison instructions (44_comparison.md). -/

namespace Sys2Proof.Machine

/-- `Execute_LT` (R89): the comparison is signed. -/
def execLt (a b : Operand) (c : Target) (s : State) : Host.Outcome State Fault Refusal :=
  finish s (writeResult a b c (fun x y => .ok (truthWord (decide (x < y)))) s)

/-- `Execute_EQ` (R90). -/
def execEq (a b : Operand) (c : Target) (s : State) : Host.Outcome State Fault Refusal :=
  finish s (writeResult a b c (fun x y => .ok (truthWord (decide (x = y)))) s)

end Sys2Proof.Machine
end

