-- ==== Sys2Proof/Machine/Control.lean ====
section
/-! DEFINITION. The conditional jumps (43_control_transfer.md). -/

namespace Sys2Proof.Machine

/-- The execute phase of JNZ and JZ (R87, R88): the target is resolved only when the jump is taken (D27), a negative
target is an address fault of the jump (D8), and one beyond memory is accepted (D9). -/
def jumpIf (taken : Int → Bool) (a b : Operand) (s : State) : Except Trap State := do
  let cnd ← resolve a s
  if taken cnd.toInt then
    let t ← resolve b s
    if t.toInt < 0 then .error (addressTrap t.toInt) else return s.withIp t
  else return s.withIp (s.ip + 3)

/-- `Execute_JNZ` (R87). -/
def execJnz (a b : Operand) (s : State) : Host.Outcome State Fault Refusal :=
  finish s (jumpIf (fun x => decide (x ≠ 0)) a b s)

/-- `Execute_JZ` (R88). -/
def execJz (a b : Operand) (s : State) : Host.Outcome State Fault Refusal :=
  finish s (jumpIf (fun x => decide (x = 0)) a b s)

end Sys2Proof.Machine
end

