-- ==== Sys2Proof/Machine/Halt.lean ====
section
/-! DEFINITION. The halt instruction (45_halt.md). -/

namespace Sys2Proof.Machine

/-- `Execute_HALT` (R91): the engine is FINISHED and `ip` is past the halt word. -/
def execHalt (s : State) : Host.Outcome State Fault Refusal :=
  finish s (.ok ((s.withStatus .finished).withIp (s.ip + 1)))

end Sys2Proof.Machine
end

