-- ==== Sys2Proof/Machine/Fetch.lean ====
section
/-! DEFINITION. Fetch, decode and argument fetch (R71 to R73), and the placing of words where they are fetched. -/

namespace Sys2Proof.Machine

/-- The fault of a word that does not decode (R60). An instruction that ends early has no fault here: its missing
word is an address fault of the argument fetch. -/
def decodeTrap (ip : Pointer) : DecodeError → Trap
  | .unexpectedOpcode w => ⟨.unexpectedOpcode, w⟩
  | .unexpectedMode w => ⟨.unexpectedMode, w⟩
  | .truncated k => addressTrap (ip.toNat + k)

/-- The instruction at `ip` (R69): the instruction word is read at `ip` (R71) and decoded (R72), then argument word
k is read at `ip + k`, in increasing order (R73). -/
def fetchInstr (s : State) : Except Trap Instr :=
  match memRead s.ip.toNat s with
  | .error t => .error t
  | .ok w =>
    match decodeHead w with
    | .error e => .error (decodeTrap s.ip e)
    | .ok h => h.complete (fun k => memRead (s.ip.toNat + k) s)

/-- Lays words out from address `a` on, making memory long enough to hold them. -/
def placeWords (m : Memory) (a : Nat) : List Word → Memory
  | [] => m
  | w :: ws => placeWords ⟨max m.len (a + 1), Memory.insert m.cells a w⟩ (a + 1) ws

/-- The program a table word stands for, loaded at `ip` of a running engine (log 4). -/
def placeTableWord (s : State) (nbits w : Nat) : State :=
  (s.withMem (placeWords s.mem s.ip.toNat (tableWords nbits w))).withStatus .running

end Sys2Proof.Machine
end

