-- ==== Sys2Proof/Machine/Step.lean ====
section
/-! DEFINITION. One step of the engine (40_engine_cycle.md). -/

namespace Sys2Proof.Machine

/-- `Step()` of R69. An engine that is not RUNNING is left as it is (R70); a fault of fetch or decode is taken (R76);
otherwise the fetched instruction executes (R74). The response the host gets is `stepResponse`. -/
def step (s : State) : Host.Outcome State Fault Refusal :=
  if s.status = .running then
    match fetchInstr s with
    | .error t => .next (takeFault t s)
    | .ok i => exec i s
  else .next s

/-- `s` with the instruction of a table word loaded where the next step fetches (log 4). -/
def State.withFetchWord (s : State) (nbits w : Nat) : State := placeTableWord s nbits w

end Sys2Proof.Machine
end

