-- ==== Sys2Proof/Machine/ProgramText.lean ====
section
/-! DEFINITION. Program text (R63, R94): comma-separated decimal literals, read and written. The parser is host
software (R4); it is modelled because LOAD_TEXT is an operation of the port (R92, log 14). -/

namespace Sys2Proof.Machine

/-- The whitespace of R94: space, tab, CR, LF. -/
def isSpace (c : Char) : Bool := c == ' ' || c == '\t' || c == '\r' || c == '\n'

/-- Whitespace removed from the two ends. -/
def trim (t : List Char) : List Char := ((t.dropWhile isSpace).reverse.dropWhile isSpace).reverse

/-- The pieces between separators: one more than there are separators. -/
def splitAt (sep : Char) : List Char → List (List Char)
  | [] => [[]]
  | c :: cs =>
    if c = sep then [] :: splitAt sep cs
    else match splitAt sep cs with
      | [] => [[c]]
      | t :: ts => (c :: t) :: ts

/-- The value of a decimal digit. -/
def digitValue (c : Char) : Option Nat :=
  if '0'.toNat ≤ c.toNat ∧ c.toNat ≤ '9'.toNat then some (c.toNat - '0'.toNat) else none

/-- The number that digits spell after the number `n` read so far; none at a character that is no digit. -/
def digitsValue : Nat → List Char → Option Nat
  | n, [] => some n
  | n, c :: cs => match digitValue c with
    | some d => digitsValue (10 * n + d) cs
    | none => none

/-- `[0-9]+`. -/
def parseNat : List Char → Option Nat
  | [] => none
  | cs => digitsValue 0 cs

/-- `-?[0-9]+`. -/
def parseInt : List Char → Option Int
  | '-' :: cs => match parseNat cs with
    | some n => some (-(n : Int))
    | none => none
  | cs => match parseNat cs with
    | some n => some (n : Int)
    | none => none

/-- A number as a word, none outside `Int64`. -/
def wordOfInt (v : Int) : Option Word := if InInt64 v then some (BitVec.ofInt 64 v) else none

/-- One token of program text (R94): whitespace removed from its two ends, then `-?[0-9]+` with a value in
`Int64`. An empty token and one with whitespace inside it are errors. -/
def parseToken (t : List Char) : Option Word := (parseInt (trim t)).bind wordOfInt

/-- The words of tokens, none if any token is an error. -/
def parseTokens : List (List Char) → Option (List Word)
  | [] => some []
  | t :: ts => match parseToken t, parseTokens ts with
    | some w, some ws => some (w :: ws)
    | _, _ => none

/-- Program text as a program array (R63, R94). -/
def parseProgram (text : List Char) : Option (List Word) := parseTokens (splitAt ',' text)

/-! ### Writing numbers -/

/-- The character of a decimal digit. -/
def digitChar (d : Nat) : Char := Char.ofNat ('0'.toNat + d)

/-- The decimal digits of a number below 10^(fuel + 1), most significant first, before what stands already. -/
def digitsOf : Nat → Nat → List Char → List Char
  | 0, n, acc => digitChar (n % 10) :: acc
  | fuel + 1, n, acc =>
    if n < 10 then digitChar n :: acc else digitsOf fuel (n / 10) (digitChar (n % 10) :: acc)

/-- A word as a base-10 signed literal (R63): at most 19 digits. -/
def renderWord (w : Word) : List Char :=
  if w.toInt < 0 then '-' :: digitsOf 18 w.toInt.natAbs [] else digitsOf 18 w.toInt.natAbs []

/-- A program array as program text: its literals separated by commas (R63). -/
def renderProgram : List Word → List Char
  | [] => []
  | [w] => renderWord w
  | w :: ws => renderWord w ++ ',' :: renderProgram ws

end Sys2Proof.Machine
end

