-- ==== Sys2Proof/Machine/Assembler.lean ====
section
/-! DEFINITION. The assembler and disassembler of R64 to R66: notation for listings, no part of the block. What the
spec leaves open in the notation is log 15. -/

namespace Sys2Proof.Machine

/-! ### From lines to words -/

/-- The expansion of a pseudo-instruction (R66); every other line stands for itself. -/
def expand : AsmLine → AsmLine
  | .jmp t => .jnz (.imm (.num 1)) t
  | .mov src d => .add src (.imm (.num 0)) d
  | .clr d => .add (.imm (.num 0)) (.imm (.num 0)) d
  | .nop => .jz (.imm (.num 1)) (.imm (.num 0))
  | line => line

/-- The number of words a line emits (R49, R64, R66). -/
def lineSize : AsmLine → Nat
  | .label _ => 0
  | .data _ => 1
  | .halt => 1
  | .inp _ | .out _ => 2
  | .jnz _ _ | .jz _ _ | .jmp _ | .nop => 3
  | .add _ _ _ | .mul _ _ _ | .lt _ _ _ | .eq _ _ _ | .mov _ _ | .clr _ => 4

/-- The address of each label: that of the next word (R64). -/
def labelTable : Nat → List AsmLine → List (Label × Nat)
  | _, [] => []
  | a, .label l :: rest => (l, a) :: labelTable a rest
  | a, line :: rest => labelTable (a + lineSize line) rest

/-- The word of a value: the number, or the label's address (R64). -/
def valueWord (table : List (Label × Nat)) : AsmValue → Option Word
  | .num n => wordOfInt n
  | .label l => match table.lookup l with
    | some a => wordOfInt (a : Int)
    | none => none

/-- The operand `#v` or `[v]` (R64). -/
def asmOperand (table : List (Label × Nat)) : AsmOperand → Option Operand
  | .imm v => (valueWord table v).map (fun w => ⟨.immediate, w⟩)
  | .pos v => (valueWord table v).map (fun w => ⟨.position, w⟩)

/-- The write target `[v]`: digit 0 (R64, R65). -/
def asmTarget (table : List (Label × Nat)) (v : AsmValue) : Option Target :=
  (valueWord table v).map (fun w => ⟨.position, w⟩)

/-- The words of an instruction with two read operands and a write target. -/
def emit3 (table : List (Label × Nat)) (k : Operand → Operand → Target → Instr) (a b : AsmOperand) (c : AsmValue) :
    Option (List Word) := do
  let a ← asmOperand table a
  let b ← asmOperand table b
  let c ← asmTarget table c
  return encode (k a b c)

/-- The words of an instruction with two read operands. -/
def emit2 (table : List (Label × Nat)) (k : Operand → Operand → Instr) (a b : AsmOperand) : Option (List Word) := do
  let a ← asmOperand table a
  let b ← asmOperand table b
  return encode (k a b)

/-- The words of a line (R65), its pseudo-instruction expanded (R66). -/
def emitLine (table : List (Label × Nat)) (line : AsmLine) : Option (List Word) :=
  match expand line with
  | .label _ => some []
  | .data n => (wordOfInt n).map (fun w => [w])
  | .add a b c => emit3 table .add a b c
  | .mul a b c => emit3 table .mul a b c
  | .inp a => (asmTarget table a).map (fun a => encode (.inp a))
  | .out a => (asmOperand table a).map (fun a => encode (.out a))
  | .jnz a b => emit2 table .jnz a b
  | .jz a b => emit2 table .jz a b
  | .lt a b c => emit3 table .lt a b c
  | .eq a b c => emit3 table .eq a b c
  | .halt => some (encode .halt)
  | .jmp _ | .mov _ _ | .clr _ | .nop => none

/-- The words of lines, none if any line has none. -/
def emitLines (table : List (Label × Nat)) : List AsmLine → Option (List Word)
  | [] => some []
  | line :: rest => match emitLine table line, emitLines table rest with
    | some ws, some more => some (ws ++ more)
    | _, _ => none

/-- The program array of a listing; none for a listing that is not well formed. -/
def assemble (p : List AsmLine) : Option (List Word) :=
  if asmWellFormed p then emitLines (labelTable 0 p) p else none

/-! ### From words to text -/

/-- `#n` or `[n]`. -/
def renderOperand (o : Operand) : List Char :=
  match o.mode with
  | .immediate => '#' :: renderWord o.raw
  | .position => '[' :: (renderWord o.raw ++ [']'])

/-- A write target is printed `[n]` whatever its digit (R65). -/
def renderTarget (c : Target) : List Char := '[' :: (renderWord c.raw ++ [']'])

/-- A mnemonic with its operands (R64). -/
def renderLine (mnemonic : List Char) : List (List Char) → List Char
  | [] => mnemonic
  | op :: ops => mnemonic ++ ' ' :: ops.foldl (fun text o => text ++ ',' :: ' ' :: o) op

/-- The listing line of an instruction, with the mnemonics of R58. -/
def renderInstr : Instr → List Char
  | .add a b c => renderLine ['A', 'D', 'D'] [renderOperand a, renderOperand b, renderTarget c]
  | .mul a b c => renderLine ['M', 'U', 'L'] [renderOperand a, renderOperand b, renderTarget c]
  | .inp a => renderLine ['I', 'N'] [renderTarget a]
  | .out a => renderLine ['O', 'U', 'T'] [renderOperand a]
  | .jnz a b => renderLine ['J', 'N', 'Z'] [renderOperand a, renderOperand b]
  | .jz a b => renderLine ['J', 'Z'] [renderOperand a, renderOperand b]
  | .lt a b c => renderLine ['L', 'T'] [renderOperand a, renderOperand b, renderTarget c]
  | .eq a b c => renderLine ['E', 'Q'] [renderOperand a, renderOperand b, renderTarget c]
  | .halt => renderLine ['H', 'A', 'L', 'T'] []

/-- The disassembler (R65): the listing line of the instruction at the front of a list of words, by the decoder of
R60. -/
def disassemble (ws : List Word) : Except DecodeError (List Char) :=
  match decode ws with
  | .ok (i, _) => .ok (renderInstr i)
  | .error e => .error e

/-! ### From text to lines -/

/-- A character a label may hold: a letter, a digit or an underscore (DESIGN CHOICE, log 15). -/
def isLabelChar (c : Char) : Bool :=
  ('a'.toNat ≤ c.toNat && c.toNat ≤ 'z'.toNat) || ('A'.toNat ≤ c.toNat && c.toNat ≤ 'Z'.toNat)
    || (digitValue c).isSome || c == '_'

/-- A label's name: not empty, label characters only, no digit in front (DESIGN CHOICE, log 15). -/
def isLabel (t : List Char) : Bool :=
  match t with
  | [] => false
  | c :: _ => t.all isLabelChar && (digitValue c).isNone

/-- A number or a label. -/
def readValue (t : List Char) : Option AsmValue :=
  match parseInt (trim t) with
  | some n => some (.num n)
  | none => if isLabel (trim t) then some (.label (trim t)) else none

/-- `[v]`, the whitespace around it removed. -/
def readTarget (t : List Char) : Option AsmValue :=
  match trim t with
  | '[' :: rest => match rest.reverse with
    | ']' :: inside => readValue inside.reverse
    | _ => none
  | _ => none

/-- `#v` or `[v]`, the whitespace around it removed. -/
def readOperand (t : List Char) : Option AsmOperand :=
  match trim t with
  | '#' :: rest => (readValue rest).map .imm
  | _ => (readTarget t).map .pos

/-- A line with two read operands and a write target. -/
def read3 (k : AsmOperand → AsmOperand → AsmValue → AsmLine) : List (List Char) → Option AsmLine
  | [a, b, c] => match readOperand a, readOperand b, readTarget c with
    | some a, some b, some c => some (k a b c)
    | _, _, _ => none
  | _ => none

/-- A line with two read operands. -/
def read2 (k : AsmOperand → AsmOperand → AsmLine) : List (List Char) → Option AsmLine
  | [a, b] => match readOperand a, readOperand b with
    | some a, some b => some (k a b)
    | _, _ => none
  | _ => none

/-- A line with one read operand. -/
def read1 (k : AsmOperand → AsmLine) : List (List Char) → Option AsmLine
  | [a] => (readOperand a).map k
  | _ => none

/-- A line with a write target only. -/
def readT (k : AsmValue → AsmLine) : List (List Char) → Option AsmLine
  | [c] => (readTarget c).map k
  | _ => none

/-- `MOV src, [d]`. -/
def readMov : List (List Char) → Option AsmLine
  | [a, c] => match readOperand a, readTarget c with
    | some a, some c => some (.mov a c)
    | _, _ => none
  | _ => none

/-- `DATA n` (R64). -/
def readData : List (List Char) → Option AsmLine
  | [t] => (parseInt (trim t)).map .data
  | _ => none

/-- The operands after a mnemonic, separated by commas; none where nothing stands. -/
def operandTexts (t : List Char) : List (List Char) := if (trim t).isEmpty then [] else splitAt ',' t

/-- A line without label and comment: a mnemonic of R58 or R66, or `DATA`, and its operands. -/
def readInstrLine (t : List Char) : Option AsmLine :=
  let ops := operandTexts (t.dropWhile (fun c => !isSpace c))
  match t.takeWhile (fun c => !isSpace c) with
  | ['A', 'D', 'D'] => read3 .add ops
  | ['M', 'U', 'L'] => read3 .mul ops
  | ['I', 'N'] => readT .inp ops
  | ['O', 'U', 'T'] => read1 .out ops
  | ['J', 'N', 'Z'] => read2 .jnz ops
  | ['J', 'Z'] => read2 .jz ops
  | ['L', 'T'] => read3 .lt ops
  | ['E', 'Q'] => read3 .eq ops
  | ['H', 'A', 'L', 'T'] => if ops.isEmpty then some .halt else none
  | ['D', 'A', 'T', 'A'] => readData ops
  | ['J', 'M', 'P'] => read1 .jmp ops
  | ['M', 'O', 'V'] => readMov ops
  | ['C', 'L', 'R'] => readT .clr ops
  | ['N', 'O', 'P'] => if ops.isEmpty then some .nop else none
  | _ => none

/-- The text of a line before its comment (R64). -/
def withoutComment (t : List Char) : List Char := t.takeWhile (fun c => c != ';')

/-- One line of a listing: a label, an instruction, both, or neither (R64). -/
def readLine (t : List Char) : Option (List AsmLine) :=
  let body := trim (withoutComment t)
  let name := body.takeWhile (fun c => c != ':')
  match body.drop name.length with
  | [] => if body.isEmpty then some [] else (readInstrLine body).map (fun l => [l])
  | _ :: after =>
    if isLabel (trim name) then
      if (trim after).isEmpty then some [.label (trim name)]
      else (readInstrLine (trim after)).map (fun l => [.label (trim name), l])
    else none

/-- The lines of a listing, none if any line is an error. -/
def readLines : List (List Char) → Option (List AsmLine)
  | [] => some []
  | t :: ts => match readLine t, readLines ts with
    | some l, some ls => some (l ++ ls)
    | _, _ => none

/-- A listing as lines (R64). -/
def readListing (text : List Char) : Option (List AsmLine) := readLines (splitAt '\n' text)

/-- A listing as a program array (R64 to R66). -/
def assembleText (text : List Char) : Option (List Word) := (readListing text).bind assemble

end Sys2Proof.Machine
end

