-- ==== Sys2Proof/Machine/HostPort.lean ====
section
/-! DEFINITION. The host interface (46_host_interface.md): each operation one atomic transaction between steps (R5,
R12, log 10). -/

namespace Sys2Proof.Machine

/-- The responses of a step (R69). -/
inductive StepResponse where
  | cont
  | stop
  | fault
deriving DecidableEq, Repr

/-- The operations of R92 on an engine that exists. -/
inductive HostOp where
  /-- `READ` (R95); the address port is an `Int64` (log 11) -/
  | read (a : Word)
  /-- `REPLACE` (R96) -/
  | replace (a v : Word)
  /-- `ADD_INPUT` (R97) -/
  | addInput (v : Word)
  /-- `READ_OUTPUTS` (R98) -/
  | readOutputs
  /-- `LAST_OUTPUT` (R99) -/
  | lastOutput
  /-- `FINISHED` (R100) -/
  | finished
  /-- `BLOCKED` (R101) -/
  | blocked
  /-- `FAULT_STATUS` (R102) -/
  | faultStatus
  /-- `STEP` (R103) -/
  | step
  /-- `RUN` (R103), followed for at most `fuel` steps (R78, log 12) -/
  | run (fuel : Nat)
deriving DecidableEq, Repr

/-- What an operation answers (R92). -/
inductive HostResponse where
  | ok
  | refused
  | fault
  | word (w : Word)
  | outputs (ws : List Word)
  /-- the last output; `none` is `NONE` -/
  | last (w : Option Word)
  | bool (b : Bool)
  | faultStatus (status : Status) (code : FaultCode) (ip : Pointer) (info : Word)
  | stepped (r : StepResponse)
  /-- `RUN` ended with this state -/
  | ran (status : Status)
  /-- `RUN` goes on: the steps it was followed for did not end it (R78) -/
  | running
deriving DecidableEq, Repr

/-- The response of a step that took `s` to `t` (R69, R70, R75): STOP if the engine was not RUNNING, FAULT if it
faulted, STOP if an input read found no unread input, CONTINUE otherwise (DEDUCED, log 9). -/
def stepResponse (s t : State) : StepResponse :=
  if s.status = .running then
    match t.status with
    | .faulted => .fault
    | .blocked => .stop
    | .running | .finished => .cont
  else .stop

/-- `Run()` of R77 for at most `fuel` steps: the final status when the run ended, none when it goes on. -/
def runFuel : Nat → State → Host.Outcome (Option Status × State) Fault Refusal
  | 0, s => .next (none, s)
  | fuel + 1, s =>
    match step s with
    | .next t => if stepResponse s t = .cont then runFuel fuel t else .next (some t.status, t)
    | .fault r => .fault r
    | .refused r => .refused r

/-- The fault of a host access out of range (R95, R96). -/
def hostAccessFault (a : Word) (s : State) : HostResponse × State := (.fault, takeHostFault (addressTrap a.toInt) s)

/-- One host operation: its response and the engine after it (R92, R95 to R103). -/
def hostOp (op : HostOp) (s : State) : Host.Outcome (HostResponse × State) Fault Refusal :=
  match op with
  | .read a => .next (match s.mem.read a.toInt with
    | some w => (.word w, s)
    | none => hostAccessFault a s)
  | .replace a v => .next (match s.mem.write a.toInt v with
    | some m => (.ok, s.withMem m)
    | none => hostAccessFault a s)
  | .addInput v => .next (match pushInput v s with
    | some t => (.ok, t)
    | none => (.refused, s))
  | .readOutputs => .next (.outputs s.outlog, s)
  | .lastOutput => .next (.last s.outlog.getLast?, s)
  | .finished => .next (.bool (decide (s.status = .finished)), s)
  | .blocked => .next (.bool (decide (s.status = .blocked)), s)
  | .faultStatus => .next (.faultStatus s.status s.faultCode s.faultIp s.faultInfo, s)
  | .step => match Sys2Proof.Machine.step s with
    | .next t => .next (.stepped (stepResponse s t), t)
    | .fault r => .fault r
    | .refused r => .refused r
  | .run fuel => match runFuel fuel s with
    | .next (some st, t) => .next (.ran st, t)
    | .next (none, t) => .next (.running, t)
    | .fault r => .fault r
    | .refused r => .refused r

/-! ### Several engines (R13, R93, R115; log 16) -/

/-- What the host can do: construct an engine, or operate on one of those it has. An engine has no identifier of its
own (R115); the host tells its engines apart by their place in its list. -/
inductive SystemOp where
  /-- `LOAD` (R93) of a block with the given parameters -/
  | load (c : Config) (p : List Word)
  /-- `LOAD_TEXT` (R94) -/
  | loadText (c : Config) (text : List Char)
  /-- an operation on engine `k` -/
  | on (k : Nat) (op : HostOp)
deriving DecidableEq, Repr

/-- `LOAD` beside the engines there are: the new engine comes last, or the load is refused and nothing changes
(R93). -/
def systemLoad (c : Config) (p : List Word) (es : List State) : HostResponse × List State :=
  match loadEngine c p with
  | some s => (.ok, es ++ [s])
  | none => (.refused, es)

/-- One operation of the host. An operation on an engine the host does not have is no transaction of the block: it
answers REFUSED and changes nothing (DESIGN CHOICE, log 16). -/
def systemOp (op : SystemOp) (es : List State) : Host.Outcome (HostResponse × List State) Fault Refusal :=
  match op with
  | .load c p => .next (systemLoad c p es)
  | .loadText c text => .next (match parseProgram text with
    | some p => systemLoad c p es
    | none => (.refused, es))
  | .on k op => match es[k]? with
    | none => .next (.refused, es)
    | some s => match hostOp op s with
      | .next (r, t) => .next (r, es.set k t)
      | .fault r => .fault r
      | .refused r => .refused r

end Sys2Proof.Machine
end

