-- ==== Sys2Proof/Safety.lean ====
section
/-! DEFINITION. What counts as a sound state and a safe run, in the terms the statements use. -/

namespace Sys2Proof.Machine

/-- The invariant of an engine: what holds after construction and is kept by every step and every host operation. -/
structure State.Inv (s : State) : Prop where
  /-- the parameters are in the ranges of R6 -/
  config : s.config.wf
  /-- memory is in its canonical form and lists no address beyond `MEM_LEN` -/
  memory : s.mem.wf
  /-- `MEM_LEN <= MAX_MEM_LEN` (R35) -/
  memoryFits : s.mem.len ≤ s.config.maxMemLen
  /-- `ip` holds no value above 2^63 - 1: jump targets are non-negative words, and sequential execution ends at
  `MEM_LEN` (R17) -/
  ipFits : s.ip.toNat ≤ 9223372036854775807
  /-- `0 <= in_cur <= len(inq)` (R22) -/
  cursor : s.inCur ≤ s.inq.length
  /-- the input queue holds at most `IN_CAP` values (R27) -/
  inputFits : ∀ n, s.config.inCap = some n → s.inq.length ≤ n
  /-- the output log holds at most `OUT_CAP` values (R26) -/
  outputFits : ∀ n, s.config.outCap = some n → s.outlog.length ≤ n
  /-- a BLOCKED engine has no unread input (R18, R27) -/
  blockedStarved : s.status = .blocked → s.inCur = s.inq.length
  /-- the fault record is at its reset value until the engine is FAULTED (R20, R31) -/
  noRecord : s.status ≠ .faulted → s.faultCode = .noFault ∧ s.faultIp = 0 ∧ s.faultInfo = 0
  /-- a FAULTED engine has a fault code, and `ip` is still where it faulted (R105, R106) -/
  record : s.status = .faulted → s.faultCode ≠ .noFault ∧ s.faultIp = s.ip

/-! ### What a statement says is unchanged -/

/-- The registers other than `ip` are unchanged: the parameters, `state` and the fault record. -/
def SameRegisters (s t : State) : Prop :=
  t.config = s.config ∧ t.status = s.status ∧ t.faultCode = s.faultCode ∧ t.faultIp = s.faultIp ∧
    t.faultInfo = s.faultInfo

/-- The I/O channel is unchanged. -/
def SameChannel (s t : State) : Prop := t.inq = s.inq ∧ t.inCur = s.inCur ∧ t.outlog = s.outlog

/-- Memory holds `r` at address `a` and is unchanged at every other address. -/
def Wrote (s t : State) (a : Int) (r : Word) : Prop :=
  t.mem.len = s.mem.len ∧ t.mem.read a = some r ∧ ∀ b, b ≠ a → t.mem.read b = s.mem.read b

/-- Memory holds the words of a list from address `a` on. -/
def HoldsAt (m : Memory) (a : Nat) (ws : List Word) : Prop :=
  ∀ k (h : k < ws.length), m.read ((a + k : Nat) : Int) = some ws[k]

/-! ### Safe runs -/

/-- A state that is no bad end: the engine has not faulted (D1: FAULTED is never a final success). -/
def State.healthy (s : State) : Prop := s.status ≠ .faulted

/-- A run of `n` steps is safe: it ends in a state, and that state is healthy. -/
def SafeRun (n : Nat) (s : State) : Prop := ∃ t, Host.Core.run Sys2Proof.core n s = .next t ∧ State.healthy t

end Sys2Proof.Machine
end

