-- ==== Sys2Proof/Certificates/Slice0/Obligations.lean ====
section
/-! DEFINITION. The statements about this machine, for the provers. Each docstring names the rules of spec/ it
formalises or rests on. -/

open Sys2Proof Sys2Proof.Machine

/-! ### Reset and construction -/

/-- The model's `State.reset` is the engine LOAD makes of the empty program with this hardware's parameters. That the
program is the empty one is the model's choice (log 3), and so is the value of `MAX_MEM_LEN` (log 2). -/
def Obligations.ResetIsLoadOfEmptyProgram : Prop :=
  loadEngine Config.thisHardware [] = some State.reset

/-- R118 with R31: LOAD sets every piece of state to its reset value, memory word for word from the program, and an
empty program faults with `Fault(ADDRESS, 0)` at its first step. -/
def Obligations.LoadSetsEveryResetValue : Prop :=
  ∀ (c : Config) (p : List Word), p.length ≤ c.maxMemLen →
    ∃ s, loadEngine c p = some s ∧ s.config = c ∧ s.mem.len = p.length ∧ HoldsAt s.mem 0 p ∧ s.ip = 0 ∧
      s.status = .running ∧ s.inq = [] ∧ s.inCur = 0 ∧ s.outlog = [] ∧ s.faultCode = .noFault ∧ s.faultIp = 0 ∧
      s.faultInfo = 0 ∧ (p = [] → step s = .next (takeFault ⟨.address, 0⟩ s))

/-- R93: a program longer than `MAX_MEM_LEN` is refused and no engine is created; any other makes a new engine and
leaves the engines there are. -/
def Obligations.LoadRefusesTooLongProgram : Prop :=
  ∀ (c : Config) (p : List Word) (es : List State),
    (c.maxMemLen < p.length → systemOp (.load c p) es = .next (.refused, es)) ∧
    (p.length ≤ c.maxMemLen → ∃ s, loadEngine c p = some s ∧ systemOp (.load c p) es = .next (.ok, es ++ [s]))

/-! ### The invariant -/

/-- `State.reset` meets the invariant. -/
def Obligations.ResetMeetsInvariant : Prop := State.reset.Inv

/-- Every engine LOAD constructs meets the invariant. -/
def Obligations.LoadedEngineMeetsInvariant : Prop :=
  ∀ (c : Config) (p : List Word) (s : State), c.wf → loadEngine c p = some s → s.Inv

/-- Every step keeps the invariant: memory stays canonical and inside `MAX_MEM_LEN`, `ip` below 2^63 (R17), the cursor
inside the queue (R22), the queues inside their capacities (R26, R27), the fault record at its reset value until the
engine faults and at the faulting `ip` from then on (R20, R105). -/
def Obligations.StepKeepsInvariant : Prop :=
  ∀ s t : State, s.Inv → step s = .next t → t.Inv

/-- Every operation of the host port keeps the invariant. -/
def Obligations.HostOperationKeepsInvariant : Prop :=
  ∀ (op : HostOp) (s t : State) (r : HostResponse), s.Inv → hostOp op s = .next (r, t) → t.Inv

/-! ### Encoding -/

/-- Decoding an encoded instruction gives it back, with every operand at every value, and leaves the words after
it. -/
def Obligations.DecodeOfEncode : Prop :=
  ∀ (i : Instr) (rest : List Word), decode (encode i ++ rest) = .ok (i, rest)

/-- Whatever decodes is the encoding of the instruction it decodes to: each word has one meaning. -/
def Obligations.EncodeOfDecode : Prop :=
  ∀ (ws : List Word) (i : Instr) (rest : List Word), decode ws = .ok (i, rest) → ws = encode i ++ rest

/-- R68: the decode examples of the spec's table. -/
def Obligations.DecodeExamplesOfTheSpec : Prop :=
  decodeHead 1 = .ok (.add .position .position .position) ∧
  decodeHead 1002 = .ok (.mul .position .immediate .position) ∧
  decodeHead 1101 = .ok (.add .immediate .immediate .position) ∧
  decodeHead 104 = .ok (.out .immediate) ∧
  decodeHead 1105 = .ok (.jnz .immediate .immediate) ∧
  decodeHead 99 = .ok .halt ∧
  decodeHead 10001 = .ok (.add .position .position .immediate) ∧
  decodeHead 31 = .error (.unexpectedOpcode 31) ∧
  decodeHead 0 = .error (.unexpectedOpcode 0) ∧
  decodeHead (-1) = .error (.unexpectedOpcode (-1)) ∧
  decodeHead 201 = .error (.unexpectedMode 201) ∧
  decodeHead 1099 = .error (.unexpectedMode 1099) ∧
  decodeHead 100004 = .error (.unexpectedMode 100004)

/-- R60: a word decodes exactly when it is not negative, its opcode is in the table, it spells no digit beyond the
arity, and each of its mode digits is 0 or 1. -/
def Obligations.DecodeAcceptsExactlyLegalWords : Prop :=
  ∀ w : Word, (∃ h, decodeHead w = .ok h) ↔
    0 ≤ w.toInt ∧ ∃ n, arityOf (w.toInt.toNat % 100) = some n ∧ w.toInt.toNat / 100 < 10 ^ n ∧
      ∀ k, k < n → digit k (w.toInt.toNat / 100) ≤ 1

/-- R54 and R59: a RUNNING engine whose instruction word is negative, or whose opcode is outside the table, takes
`Fault(UNEXPECTED_OPCODE, w)`. -/
def Obligations.UnexpectedOpcodeFaults : Prop :=
  ∀ (s : State) (w : Word), s.status = .running → s.mem.read s.ip.toNat = some w →
    (w.toInt < 0 ∨ 0 ≤ w.toInt ∧ w.toInt % 100 ∉ ([1, 2, 3, 4, 5, 6, 7, 8, 99] : List Int)) →
    step s = .next (takeFault ⟨.unexpectedOpcode, w⟩ s)

/-- R53: a legal opcode with a digit beyond its arity takes `Fault(UNEXPECTED_MODE, w)`. -/
def Obligations.DigitBeyondArityFaults : Prop :=
  ∀ (s : State) (w : Word) (n : Nat), s.status = .running → s.mem.read s.ip.toNat = some w → 0 ≤ w.toInt →
    arityOf (w.toInt.toNat % 100) = some n → 10 ^ n ≤ w.toInt.toNat / 100 →
    step s = .next (takeFault ⟨.unexpectedMode, w⟩ s)

/-- R52: a mode digit 2 to 9 in any of the positions 1 .. arity, a write target's included, takes
`Fault(UNEXPECTED_MODE, w)`. -/
def Obligations.BadModeDigitFaults : Prop :=
  ∀ (s : State) (w : Word) (n k : Nat), s.status = .running → s.mem.read s.ip.toNat = some w → 0 ≤ w.toInt →
    arityOf (w.toInt.toNat % 100) = some n → 1 ≤ k → k ≤ n → 2 ≤ digit (k + 1) w.toInt.toNat →
    step s = .next (takeFault ⟨.unexpectedMode, w⟩ s)

/-! ### The step -/

/-- A RUNNING engine with the words of an instruction at `ip` executes that instruction. -/
def Obligations.StepRunsDecodedInstruction : Prop :=
  ∀ (s : State) (ws : List Word) (i : Instr), s.status = .running → decode ws = .ok (i, []) →
    HoldsAt s.mem s.ip.toNat ws → step s = exec i s

/-- R70: a step of an engine that is BLOCKED, FINISHED or FAULTED answers STOP and changes nothing. -/
def Obligations.StoppedEngineStepChangesNothing : Prop :=
  ∀ s : State, s.status ≠ .running → step s = .next s ∧ hostOp .step s = .next (.stepped .stop, s)

/-- Every step and every host operation answers with a next state: no instruction is refused and no fault is left
without its entry. -/
def Obligations.EveryOperationAnswersNext : Prop :=
  (∀ s : State, ∃ t, step s = .next t) ∧ (∀ (op : HostOp) (s : State), ∃ r t, hostOp op s = .next (r, t))

/-- R71: a step whose `ip` is at or beyond `MEM_LEN` takes `Fault(ADDRESS, ip)`. -/
def Obligations.FetchBeyondMemoryFaults : Prop :=
  ∀ s : State, s.status = .running → s.mem.len ≤ s.ip.toNat → step s = .next (takeFault ⟨.address, s.ip⟩ s)

/-- R73: an argument word beyond memory takes `Fault(ADDRESS, ip0 + k)` for the first such k, whatever the
operands. -/
def Obligations.MissingArgumentWordFaults : Prop :=
  ∀ (s : State) (w : Word) (h : Head) (k : Nat), s.status = .running → s.mem.read s.ip.toNat = some w →
    decodeHead w = .ok h → 1 ≤ k → k ≤ h.arity → s.ip.toNat + k = s.mem.len →
    step s = .next (takeFault ⟨.address, BitVec.ofNat 64 (s.ip.toNat + k)⟩ s)

/-- R76: faults are precise. A step that faults leaves memory, the output log, the input queue, the cursor and `ip` as
they were, and writes the record with the faulting `ip`; the host is answered FAULT. -/
def Obligations.FaultsArePrecise : Prop :=
  ∀ s t : State, s.status = .running → step s = .next t → t.status = .faulted →
    t.mem = s.mem ∧ t.ip = s.ip ∧ SameChannel s t ∧ t.config = s.config ∧ t.faultIp = s.ip ∧
      t.faultCode ≠ .noFault ∧ hostOp .step s = .next (.stepped .fault, t)

/-- R16: `ip` after a step. A fault and a blocked read leave it; a taken jump sets it to the target's value; every
other completed instruction moves it past its words, without wrapping (R17). -/
def Obligations.StepAdvancesIp : Prop :=
  ∀ (s t : State) (i : Instr), s.Inv → s.status = .running → fetchInstr s = .ok i → step s = .next t →
    (t.status = .faulted ∨ t.status = .blocked → t.ip = s.ip) ∧
    (t.status = .running ∨ t.status = .finished →
      (∀ a b x, i = .jnz a b → resolve a s = .ok x → x.toInt ≠ 0 → resolve b s = .ok t.ip) ∧
      (∀ a b x, i = .jz a b → resolve a s = .ok x → x.toInt = 0 → resolve b s = .ok t.ip) ∧
      ((∀ a b x, i = .jnz a b → resolve a s = .ok x → x.toInt = 0) →
        (∀ a b x, i = .jz a b → resolve a s = .ok x → x.toInt ≠ 0) →
        t.ip.toNat = s.ip.toNat + 1 + i.args.length))

/-- R75: a step that executes an instruction answers CONTINUE, HALT included, after which the following step answers
STOP; the one exception is an input read that finds no unread input, which answers STOP, sets BLOCKED and leaves
`ip`. -/
def Obligations.StepResponses : Prop :=
  ∀ (s t : State) (i : Instr), s.status = .running → fetchInstr s = .ok i → step s = .next t → t.status ≠ .faulted →
    ((∃ c, i = .inp c) ∧ inputAvailable s = false →
      hostOp .step s = .next (.stepped .stop, t) ∧ t.status = .blocked ∧ t.ip = s.ip) ∧
    (¬ ((∃ c, i = .inp c) ∧ inputAvailable s = false) → hostOp .step s = .next (.stepped .cont, t)) ∧
    (i = .halt → hostOp .step t = .next (.stepped .stop, t))

/-- R19: an engine becomes FINISHED in a step only by executing a halt word, and becomes BLOCKED in a step only by
executing an input word (3 or 103) with no unread input, which changes nothing else. -/
def Obligations.StatusChangesOnlyAsListed : Prop :=
  ∀ s t : State, step s = .next t → t.status ≠ s.status →
    s.status = .running ∧
    (t.status = .finished → s.mem.read s.ip.toNat = some 99) ∧
    (t.status = .blocked → (s.mem.read s.ip.toNat = some 3 ∨ s.mem.read s.ip.toNat = some 103) ∧
      s.inq.length ≤ s.inCur ∧ t = s.withStatus .blocked) ∧
    t.status ≠ .running

/-! ### Operands -/

/-- R55: an Immediate argument word is the value; a Position argument word is read as an address, and one outside
memory raises `Fault(ADDRESS, raw)`. -/
def Obligations.ResolveFollowsTheModes : Prop :=
  ∀ (w : Word) (s : State),
    resolve ⟨.immediate, w⟩ s = .ok w ∧
    (0 ≤ w.toInt ∧ w.toInt < s.mem.len →
      ∃ v, s.mem.read w.toInt = some v ∧ resolve ⟨.position, w⟩ s = .ok v) ∧
    (¬ (0 ≤ w.toInt ∧ w.toInt < s.mem.len) → resolve ⟨.position, w⟩ s = .error ⟨.address, w⟩)

/-- R57, R67: a write target's digit has no effect. -/
def Obligations.WriteTargetDigitIsIgnored : Prop :=
  ∀ i : Instr, exec i = exec i.canonical

/-- R56, R109: an operand 1 that is outside memory faults with its address, whatever else is wrong. -/
def Obligations.BadFirstOperandFaults : Prop :=
  ∀ (a b : Operand) (c : Target) (s : State), a.mode = .position → s.mem.read a.raw.toInt = none →
    ∀ i ∈ [Instr.add a b c, .mul a b c, .lt a b c, .eq a b c, .out a, .jnz a b, .jz a b],
      exec i s = .next (takeFault ⟨.address, a.raw⟩ s)

/-- R56, R109, R87, R88: an operand 2 that is outside memory faults with its address once operand 1 is resolved; a
jump's target only when the jump is taken. -/
def Obligations.BadSecondOperandFaults : Prop :=
  ∀ (a b : Operand) (c : Target) (s : State) (x : Word), resolve a s = .ok x → b.mode = .position →
    s.mem.read b.raw.toInt = none →
    (∀ i ∈ [Instr.add a b c, .mul a b c, .lt a b c, .eq a b c],
      exec i s = .next (takeFault ⟨.address, b.raw⟩ s)) ∧
    (x.toInt ≠ 0 → exec (.jnz a b) s = .next (takeFault ⟨.address, b.raw⟩ s)) ∧
    (x.toInt = 0 → exec (.jz a b) s = .next (takeFault ⟨.address, b.raw⟩ s))

/-- R57, R84, R109: a write target outside memory faults with its address once the operands are resolved, before any
overflow; IN faults so whether or not there is input. -/
def Obligations.BadWriteTargetFaults : Prop :=
  ∀ (a b : Operand) (c : Target) (s : State), s.mem.inRange c.raw.toInt = false →
    (∀ x y, resolve a s = .ok x → resolve b s = .ok y →
      ∀ i ∈ [Instr.add a b c, .mul a b c, .lt a b c, .eq a b c],
        exec i s = .next (takeFault ⟨.address, c.raw⟩ s)) ∧
    exec (.inp c) s = .next (takeFault ⟨.address, c.raw⟩ s)

/-! ### Arithmetic and comparison -/

/-- R82: ADD with its operands resolved, its target in range and a sum in `Int64` writes the sum, moves `ip` past its
four words, and changes nothing else. -/
def Obligations.AddWritesSum : Prop :=
  ∀ (a b : Operand) (c : Target) (s : State) (x y r : Word), s.mem.wf → resolve a s = .ok x → resolve b s = .ok y →
    s.mem.inRange (targetAddress c) = true → r.toInt = x.toInt + y.toInt →
    ∃ t, exec (.add a b c) s = .next t ∧ Wrote s t (targetAddress c) r ∧ t.ip = s.ip + 4 ∧ SameChannel s t ∧
      SameRegisters s t

/-- R83: MUL likewise, with the exact signed product. -/
def Obligations.MulWritesProduct : Prop :=
  ∀ (a b : Operand) (c : Target) (s : State) (x y r : Word), s.mem.wf → resolve a s = .ok x → resolve b s = .ok y →
    s.mem.inRange (targetAddress c) = true → r.toInt = x.toInt * y.toInt →
    ∃ t, exec (.mul a b c) s = .next t ∧ Wrote s t (targetAddress c) r ∧ t.ip = s.ip + 4 ∧ SameChannel s t ∧
      SameRegisters s t

/-- R81: ADD and MUL compute the exact sum or product `r` of their signed operands. In `Int64` it is the result.
Otherwise, under `OVERFLOW_POLICY = FAULT`, it is the fault OVERFLOW with the wrapped result as its info; under `WRAP`
the wrapped result `((r + 2^63) mod 2^64) - 2^63` is the result. A result is written at the write target, `ip` moves
past the four words, and nothing else changes. -/
def Obligations.ArithmeticFollowsTheOverflowPolicy : Prop :=
  ∀ (a b : Operand) (c : Target) (s : State) (x y : Word) (i : Instr) (r : Int), s.mem.wf →
    resolve a s = .ok x → resolve b s = .ok y → s.mem.inRange (targetAddress c) = true →
    (i = .add a b c ∧ r = x.toInt + y.toInt ∨ i = .mul a b c ∧ r = x.toInt * y.toInt) →
    ∃ v : Word, v.toInt = (r + 9223372036854775808) % 18446744073709551616 - 9223372036854775808 ∧
      (InInt64 r → v.toInt = r) ∧
      (InInt64 r ∨ s.config.overflow = .wrap → ∃ t, exec i s = .next t ∧ Wrote s t (targetAddress c) v ∧
        t.ip = s.ip + 4 ∧ SameChannel s t ∧ SameRegisters s t) ∧
      (¬ InInt64 r → s.config.overflow = .fault → exec i s = .next (takeFault ⟨.overflow, v⟩ s))

/-- R89: LT writes 1 if operand 1 is less than operand 2 as signed numbers, else 0. -/
def Obligations.LtWritesSignedComparison : Prop :=
  ∀ (a b : Operand) (c : Target) (s : State) (x y : Word), s.mem.wf → resolve a s = .ok x → resolve b s = .ok y →
    s.mem.inRange (targetAddress c) = true →
    ∃ t, exec (.lt a b c) s = .next t ∧ Wrote s t (targetAddress c) (if x.toInt < y.toInt then 1 else 0) ∧
      t.ip = s.ip + 4 ∧ SameChannel s t ∧ SameRegisters s t

/-- R90: EQ writes 1 if the operands are the same word, else 0. -/
def Obligations.EqWritesEquality : Prop :=
  ∀ (a b : Operand) (c : Target) (s : State) (x y : Word), s.mem.wf → resolve a s = .ok x → resolve b s = .ok y →
    s.mem.inRange (targetAddress c) = true →
    ∃ t, exec (.eq a b c) s = .next t ∧ Wrote s t (targetAddress c) (if x = y then 1 else 0) ∧ t.ip = s.ip + 4 ∧
      SameChannel s t ∧ SameRegisters s t

/-! ### The I/O channel -/

/-- R84, R25: IN with an unread value stores it at the write target, moves the cursor past it and `ip` past its two
words, and changes nothing else. -/
def Obligations.InputStoresNextValue : Prop :=
  ∀ (c : Target) (s : State) (v : Word), s.mem.wf → s.mem.inRange (targetAddress c) = true →
    s.inq[s.inCur]? = some v →
    ∃ t, exec (.inp c) s = .next t ∧ Wrote s t (targetAddress c) v ∧ t.inCur = s.inCur + 1 ∧ t.ip = s.ip + 2 ∧
      t.inq = s.inq ∧ t.outlog = s.outlog ∧ SameRegisters s t

/-- R84, R111: IN with no unread value and a target in range sets BLOCKED and changes nothing else. -/
def Obligations.StarvedInputBlocks : Prop :=
  ∀ (c : Target) (s : State), s.mem.inRange (targetAddress c) = true → s.inq.length ≤ s.inCur →
    exec (.inp c) s = .next (s.withStatus .blocked)

/-- R85, R26: OUT appends its operand's value to the log and moves `ip` past its two words, and changes nothing else;
at a finite capacity that is reached it takes `Fault(OUTPUT_FULL, v)`. -/
def Obligations.OutputAppendsOrFaultsWhenFull : Prop :=
  ∀ (a : Operand) (s : State) (v : Word), resolve a s = .ok v →
    (s.config.outCap ≠ some s.outlog.length →
      exec (.out a) s = .next ((s.withOutput (s.outlog ++ [v])).withIp (s.ip + 2))) ∧
    (s.config.outCap = some s.outlog.length → exec (.out a) s = .next (takeFault ⟨.outputFull, v⟩ s))

/-- R86: inputs are consumed in push order, each once. A step either leaves the cursor, or it executed an IN, moved the
cursor by one and stored the value that was at the cursor; it never changes the queue. -/
def Obligations.InputsAreConsumedInOrder : Prop :=
  ∀ s t : State, s.mem.wf → step s = .next t →
    t.inq = s.inq ∧ (t.inCur = s.inCur ∨
      ∃ c v, fetchInstr s = .ok (.inp c) ∧ t.inCur = s.inCur + 1 ∧ s.inq[s.inCur]? = some v ∧
        t.mem.read (targetAddress c) = some v)

/-- R23: the output log only grows, at the end, however long the machine runs and whatever the host does with it. -/
def Obligations.OutputLogOnlyGrows : Prop :=
  (∀ (n : Nat) (s t : State), Host.Core.run Sys2Proof.core n s = .next t → s.outlog <+: t.outlog) ∧
  (∀ (op : HostOp) (s t : State) (r : HostResponse), hostOp op s = .next (r, t) → s.outlog <+: t.outlog)

/-- R84, R97, R117: an IN that blocks, resumed by an accepted ADD_INPUT, stores exactly the pushed value: BLOCKED
survives the wait unchanged and the retry starts from the same `ip`. -/
def Obligations.BlockedInputResumesWithPushedValue : Prop :=
  ∀ (s : State) (c : Target) (v : Word), s.mem.wf → s.status = .running → fetchInstr s = .ok (.inp c) →
    s.mem.inRange (targetAddress c) = true → s.inCur = s.inq.length → s.config.inCap ≠ some s.inq.length →
    ∃ b r t, step s = .next b ∧ b.status = .blocked ∧ hostOp (.addInput v) b = .next (.ok, r) ∧
      r.status = .running ∧ r.ip = s.ip ∧ step r = .next t ∧ Wrote s t (targetAddress c) v ∧ t.ip = s.ip + 2 ∧
      t.inCur = s.inCur + 1 ∧ t.inq = s.inq ++ [v] ∧ t.outlog = s.outlog ∧ t.status = .running

/-! ### Control transfer and halt -/

/-- R87: JNZ jumps to its target's value when its condition is not 0, and otherwise moves past its three words,
whatever its target is; nothing else changes. -/
def Obligations.JnzJumpsWhenNotZero : Prop :=
  ∀ (a b : Operand) (s : State) (x : Word), resolve a s = .ok x →
    (x.toInt ≠ 0 → ∀ y, resolve b s = .ok y → 0 ≤ y.toInt → exec (.jnz a b) s = .next (s.withIp y)) ∧
    (x.toInt = 0 → exec (.jnz a b) s = .next (s.withIp (s.ip + 3)))

/-- R88: JZ jumps to its target's value when its condition is 0, and otherwise moves past its three words, whatever
its target is; nothing else changes. -/
def Obligations.JzJumpsWhenZero : Prop :=
  ∀ (a b : Operand) (s : State) (x : Word), resolve a s = .ok x →
    (x.toInt = 0 → ∀ y, resolve b s = .ok y → 0 ≤ y.toInt → exec (.jz a b) s = .next (s.withIp y)) ∧
    (x.toInt ≠ 0 → exec (.jz a b) s = .next (s.withIp (s.ip + 3)))

/-- R87, R88, D8: a taken jump to a negative value takes `Fault(ADDRESS, t)`. -/
def Obligations.NegativeJumpTargetFaults : Prop :=
  ∀ (a b : Operand) (s : State) (x y : Word), resolve a s = .ok x → resolve b s = .ok y → y.toInt < 0 →
    (x.toInt ≠ 0 → exec (.jnz a b) s = .next (takeFault ⟨.address, y⟩ s)) ∧
    (x.toInt = 0 → exec (.jz a b) s = .next (takeFault ⟨.address, y⟩ s))

/-- R17, R71, D9: a taken jump to a value at or beyond `MEM_LEN` completes, and the next step takes
`Fault(ADDRESS, t)`. -/
def Obligations.JumpBeyondMemoryFaultsAtNextFetch : Prop :=
  ∀ (s : State) (a b : Operand) (x y : Word), s.status = .running →
    (fetchInstr s = .ok (.jnz a b) ∧ x.toInt ≠ 0 ∨ fetchInstr s = .ok (.jz a b) ∧ x.toInt = 0) →
    resolve a s = .ok x → resolve b s = .ok y → (s.mem.len : Int) ≤ y.toInt →
    step s = .next (s.withIp y) ∧ step (s.withIp y) = .next (takeFault ⟨.address, y⟩ (s.withIp y))

/-- R91: HALT sets FINISHED and moves `ip` past its word, and changes nothing else. -/
def Obligations.HaltFinishes : Prop :=
  ∀ s : State, exec .halt s = .next ((s.withStatus .finished).withIp (s.ip + 1))

/-! ### Frames -/

/-- The frame of ADD, MUL, LT, EQ and IN, the instructions with a write target: whenever one answers a next state,
every address but its write target's reads as before, and the queue, the log and the parameters are as before; the
cursor moves only in IN; the fault record changes only when the instruction faults. -/
def Obligations.StoringInstructionsFrame : Prop :=
  ∀ (i : Instr) (a : Int) (s t : State), writeAddress i = some a → exec i s = .next t →
    t.mem.len = s.mem.len ∧ (∀ b, b ≠ a → t.mem.read b = s.mem.read b) ∧ t.inq = s.inq ∧ t.outlog = s.outlog ∧
      t.config = s.config ∧ ((∀ c, i ≠ .inp c) → t.inCur = s.inCur) ∧
      (t.status = s.status ∨ t.status = .faulted ∨ t.status = .blocked ∧ ∃ c, i = .inp c) ∧
      (t.status ≠ .faulted → t.faultCode = s.faultCode ∧ t.faultIp = s.faultIp ∧ t.faultInfo = s.faultInfo)

/-- The frame of OUT, JNZ, JZ and HALT, the instructions without a write target: memory, the queue, the cursor and the
parameters are as before; the log changes only in OUT; `state` only by a fault or HALT; the fault record only by a
fault. -/
def Obligations.NonStoringInstructionsFrame : Prop :=
  ∀ (i : Instr) (s t : State), writeAddress i = none → exec i s = .next t →
    t.mem = s.mem ∧ t.inq = s.inq ∧ t.inCur = s.inCur ∧ t.config = s.config ∧
      ((∀ a, i ≠ .out a) → t.outlog = s.outlog) ∧
      (t.status = s.status ∨ t.status = .faulted ∨ t.status = .finished ∧ i = .halt) ∧
      (t.status ≠ .faulted → t.faultCode = s.faultCode ∧ t.faultIp = s.faultIp ∧ t.faultInfo = s.faultInfo)

/-- A step changes memory only at the write target of the instruction it fetched, and never `MEM_LEN` (R35) nor the
parameters. -/
def Obligations.StepWritesOnlyItsTarget : Prop :=
  ∀ s t : State, step s = .next t →
    t.mem.len = s.mem.len ∧ t.config = s.config ∧
      ∀ b, (∀ i, fetchInstr s = .ok i → writeAddress i ≠ some b) → t.mem.read b = s.mem.read b

/-! ### Memory -/

/-- Two memories in canonical form that have the same length and read alike are the same memory. -/
def Obligations.MemoriesThatReadAlikeAreEqual : Prop :=
  ∀ m m' : Memory, m.wf → m'.wf → m.len = m'.len → (∀ a, m.read a = m'.read a) → m = m'

/-- R44, R124: self-modifying code needs no synchronisation. If the write target of an ADD is the word after it, the
very next step fetches the sum: where the sum is no legal word, that step takes its decode fault. -/
def Obligations.WrittenWordIsFetchedNext : Prop :=
  ∀ (s : State) (a b : Operand) (c : Target) (x y r : Word), s.Inv → s.status = .running →
    fetchInstr s = .ok (.add a b c) → resolve a s = .ok x → resolve b s = .ok y → r.toInt = x.toInt + y.toInt →
    targetAddress c = s.ip.toNat + 4 → s.ip.toNat + 4 < s.mem.len →
    ∃ t, step s = .next t ∧ t.mem.read t.ip.toNat = some r ∧
      (∀ h, decodeHead r = .ok h → h.arity = 0 → step t = exec .halt t) ∧
      (∀ e, decodeHead r = .error e → step t = .next (takeFault (decodeTrap t.ip e) t))

/-! ### The host port -/

/-- R95: READ answers the word and changes nothing; out of range it answers FAULT, and the engine becomes FAULTED with
`(ADDRESS, ip, a)`, unless it is FAULTED already, when its record stays (R105). -/
def Obligations.HostReadAnswersOrFaults : Prop :=
  ∀ (a : Word) (s : State),
    (0 ≤ a.toInt ∧ a.toInt < s.mem.len →
      ∃ w, s.mem.read a.toInt = some w ∧ hostOp (.read a) s = .next (.word w, s)) ∧
    (¬ (0 ≤ a.toInt ∧ a.toInt < s.mem.len) → s.status ≠ .faulted →
      hostOp (.read a) s = .next (.fault, takeFault ⟨.address, a⟩ s)) ∧
    (¬ (0 ≤ a.toInt ∧ a.toInt < s.mem.len) → s.status = .faulted → hostOp (.read a) s = .next (.fault, s))

/-- R96: REPLACE writes one word and changes nothing else, in every state of the engine; out of range it is handled as
READ is. -/
def Obligations.HostReplaceWritesOneWord : Prop :=
  ∀ (a v : Word) (s : State), s.mem.wf →
    (s.mem.inRange a.toInt = true →
      ∃ t, hostOp (.replace a v) s = .next (.ok, t) ∧ Wrote s t a.toInt v ∧ t.ip = s.ip ∧ SameChannel s t ∧
        SameRegisters s t) ∧
    (s.mem.inRange a.toInt = false → hostOp (.replace a v) s = hostOp (.read a) s)

/-- R97, R27: ADD_INPUT appends the value, makes a BLOCKED engine RUNNING and leaves every other state, `ip`, the
cursor, memory and the log; at a finite capacity that is reached it is refused and changes nothing. -/
def Obligations.AddInputAppendsAndUnblocks : Prop :=
  ∀ (v : Word) (s : State),
    (s.config.inCap ≠ some s.inq.length →
      ∃ t, hostOp (.addInput v) s = .next (.ok, t) ∧ t.inq = s.inq ++ [v] ∧
        t.status = (if s.status = .blocked then .running else s.status) ∧ t.ip = s.ip ∧ t.inCur = s.inCur ∧
        t.mem = s.mem ∧ t.outlog = s.outlog ∧ t.config = s.config ∧ t.faultCode = s.faultCode ∧
        t.faultIp = s.faultIp ∧ t.faultInfo = s.faultInfo) ∧
    (s.config.inCap = some s.inq.length → hostOp (.addInput v) s = .next (.refused, s))

/-- R98 to R102: the queries answer what they name and change nothing. -/
def Obligations.QueriesChangeNothing : Prop :=
  ∀ s : State,
    hostOp .readOutputs s = .next (.outputs s.outlog, s) ∧
    hostOp .lastOutput s = .next (.last s.outlog.getLast?, s) ∧
    hostOp .finished s = .next (.bool (decide (s.status = .finished)), s) ∧
    hostOp .blocked s = .next (.bool (decide (s.status = .blocked)), s) ∧
    hostOp .faultStatus s = .next (.faultStatus s.status s.faultCode s.faultIp s.faultInfo, s)

/-- R105: once FAULTED, no host operation, STEP and RUN included, moves the engine or overwrites its record; a host
access that would fault answers FAULT; only REPLACE and ADD_INPUT change anything (D14). -/
def Obligations.FaultedEngineKeepsItsRecord : Prop :=
  ∀ (op : HostOp) (s t : State) (r : HostResponse), s.status = .faulted → hostOp op s = .next (r, t) →
    t.status = .faulted ∧ t.faultCode = s.faultCode ∧ t.faultIp = s.faultIp ∧ t.faultInfo = s.faultInfo ∧
      t.ip = s.ip ∧ t.outlog = s.outlog ∧ t.inCur = s.inCur ∧
      (∀ a v, op = .read a ∨ op = .replace a v → s.mem.inRange a.toInt = false → r = .fault) ∧
      ((∀ a v, op ≠ .replace a v) → (∀ v, op ≠ .addInput v) → t = s)

/-- R77: a run that ends answers the final state, which is not RUNNING, and following it for longer changes nothing; a
run of an engine that is not RUNNING ends at once and changes nothing. -/
def Obligations.RunEndsStoppedWhateverTheFuel : Prop :=
  (∀ (n m : Nat) (s t : State) (st : Status), runFuel n s = .next (some st, t) →
    t.status = st ∧ st ≠ .running ∧ runFuel (n + m) s = .next (some st, t)) ∧
  (∀ (n : Nat) (s : State), s.status ≠ .running → runFuel (n + 1) s = .next (some s.status, s))

/-- FAULTED is a bad end that no later step mends: a run that ends healthy was healthy all along (R105, D1). -/
def Obligations.SafeRunIsSafeThroughout : Prop :=
  ∀ (n m : Nat) (s : State), SafeRun (n + m) s → SafeRun n s

/-- R13, R115: an operation on one engine leaves every other engine as it is, and constructing an engine leaves all
of them. -/
def Obligations.EnginesShareNothing : Prop :=
  ∀ (op : SystemOp) (es es' : List State) (r : HostResponse) (j : Nat), systemOp op es = .next (r, es') →
    (∀ k o, op = .on k o → k ≠ j) → j < es.length → es'[j]? = es[j]?

/-! ### Notation -/

/-- R63, R94: a program written as text is read back word for word. -/
def Obligations.ProgramTextRoundTrip : Prop :=
  ∀ p : List Word, p ≠ [] → parseProgram (renderProgram p) = some p

/-- R66: the pseudo-instructions assemble to the words of the table, for every number the operands admit. -/
def Obligations.PseudoInstructionsExpandAsListed : Prop :=
  ∀ v d : Word,
    assemble [.jmp (.imm (.num v.toInt))] = some [1105, 1, v] ∧
    assemble [.jmp (.pos (.num v.toInt))] = some [105, 1, v] ∧
    assemble [.mov (.pos (.num v.toInt)) (.num d.toInt)] = some [1001, v, 0, d] ∧
    assemble [.mov (.imm (.num v.toInt)) (.num d.toInt)] = some [1101, v, 0, d] ∧
    assemble [.clr (.num d.toInt)] = some [1101, 0, 0, d] ∧
    assemble [.nop] = some [1106, 1, 0]
end

