-- ==== Sys2Proof/Laws/Memory.lean ====
section
/-! SUPPORT. The laws of memory: read after write, what a write leaves alone, and that every memory operation keeps
the canonical form. -/

namespace Sys2Proof.Machine

/-! ### Cells -/

/-- Every cell of a list lies at or above an address. -/
abbrev Memory.Above (a : Nat) (cells : List (Nat × Word)) : Prop := ∀ c ∈ cells, a ≤ c.1

theorem Memory.lookup_above (cells : List (Nat × Word)) (a b : Nat) (h : Memory.Above a cells) (hb : b < a) :
    Memory.lookup cells b = 0 := by
  induction cells with
  | nil => rfl
  | cons c rest ih =>
    obtain ⟨k, w⟩ := c
    have hk : a ≤ k := h (k, w) (by simp)
    have hne : k ≠ b := by omega
    simp only [Memory.lookup, if_neg hne]
    exact ih (fun c hc => h c (by simp [hc]))

theorem Memory.lookup_consCell_same (a : Nat) (v : Word) (cells : List (Nat × Word))
    (h : Memory.Above (a + 1) cells) : Memory.lookup (Memory.consCell a v cells) a = v := by
  unfold Memory.consCell
  split
  · rename_i h0
    rw [h0]
    exact Memory.lookup_above cells (a + 1) a h (by omega)
  · simp [Memory.lookup]

theorem Memory.lookup_consCell_other (a b : Nat) (v : Word) (cells : List (Nat × Word)) (hb : b ≠ a) :
    Memory.lookup (Memory.consCell a v cells) b = Memory.lookup cells b := by
  unfold Memory.consCell
  split
  · rfl
  · simp [Memory.lookup, Ne.symm hb]

theorem Memory.lookup_insert_other (cells : List (Nat × Word)) (a b : Nat) (v : Word) (hb : b ≠ a) :
    Memory.lookup (Memory.insert cells a v) b = Memory.lookup cells b := by
  induction cells with
  | nil => exact Memory.lookup_consCell_other a b v [] hb
  | cons c rest ih =>
    obtain ⟨k, w⟩ := c
    unfold Memory.insert
    split
    · simp [Memory.lookup, ih]
    · split
      · rename_i hk
        rw [Memory.lookup_consCell_other a b v rest hb]
        simp only [Memory.lookup, if_neg (show k ≠ b by omega)]
      · exact Memory.lookup_consCell_other a b v _ hb

theorem Memory.lookup_insert_same (cells : List (Nat × Word)) (a : Nat) (v : Word)
    (h : cells.Pairwise (fun x y => x.1 < y.1)) : Memory.lookup (Memory.insert cells a v) a = v := by
  induction cells with
  | nil => exact Memory.lookup_consCell_same a v [] (by simp [Memory.Above])
  | cons c rest ih =>
    obtain ⟨k, w⟩ := c
    rw [List.pairwise_cons] at h
    unfold Memory.insert
    split
    · rename_i hk
      simp only [Memory.lookup, if_neg (show k ≠ a by omega)]
      exact ih h.2
    · split
      · rename_i hk
        refine Memory.lookup_consCell_same a v rest (fun c hc => ?_)
        have := h.1 c hc
        simp only at this
        omega
      · refine Memory.lookup_consCell_same a v _ (fun c hc => ?_)
        rcases List.mem_cons.1 hc with rfl | hc
        · simp only; omega
        · have := h.1 c hc
          simp only at this
          omega

theorem Memory.mem_consCell {c : Nat × Word} {a : Nat} {v : Word} {cells : List (Nat × Word)}
    (h : c ∈ Memory.consCell a v cells) : (c.1 = a ∧ c.2 ≠ 0) ∨ c ∈ cells := by
  unfold Memory.consCell at h
  split at h
  · exact .inr h
  · rename_i hv
    rcases List.mem_cons.1 h with rfl | h
    · exact .inl ⟨rfl, hv⟩
    · exact .inr h

theorem Memory.mem_insert {c : Nat × Word} {a : Nat} {v : Word} (cells : List (Nat × Word))
    (h : c ∈ Memory.insert cells a v) : (c.1 = a ∧ c.2 ≠ 0) ∨ c ∈ cells := by
  induction cells with
  | nil => exact Memory.mem_consCell h
  | cons d rest ih =>
    obtain ⟨k, w⟩ := d
    unfold Memory.insert at h
    split at h
    · rcases List.mem_cons.1 h with rfl | h
      · exact .inr (by simp)
      · rcases ih h with h | h
        · exact .inl h
        · exact .inr (by simp [h])
    · split at h
      · rcases Memory.mem_consCell h with h | h
        · exact .inl h
        · exact .inr (by simp [h])
      · exact Memory.mem_consCell h

theorem Memory.pairwise_consCell {a : Nat} {v : Word} {cells : List (Nat × Word)}
    (h : cells.Pairwise (fun x y => x.1 < y.1)) (ha : Memory.Above (a + 1) cells) :
    (Memory.consCell a v cells).Pairwise (fun x y => x.1 < y.1) := by
  unfold Memory.consCell
  split
  · exact h
  · refine List.pairwise_cons.2 ⟨fun c hc => ?_, h⟩
    have := ha c hc
    simp only
    omega

theorem Memory.pairwise_insert (cells : List (Nat × Word)) (a : Nat) (v : Word)
    (h : cells.Pairwise (fun x y => x.1 < y.1)) :
    (Memory.insert cells a v).Pairwise (fun x y => x.1 < y.1) := by
  induction cells with
  | nil => exact Memory.pairwise_consCell h (by simp [Memory.Above])
  | cons d rest ih =>
    obtain ⟨k, w⟩ := d
    have hd := h
    rw [List.pairwise_cons] at h
    unfold Memory.insert
    split
    · refine List.pairwise_cons.2 ⟨fun c hc => ?_, ih h.2⟩
      rcases Memory.mem_insert rest hc with ⟨h1, _⟩ | hc
      · simp only; omega
      · exact h.1 c hc
    · split
      · refine Memory.pairwise_consCell h.2 (fun c hc => ?_)
        have := h.1 c hc
        simp only at this
        omega
      · refine Memory.pairwise_consCell hd (fun c hc => ?_)
        rcases List.mem_cons.1 hc with rfl | hc
        · simp only; omega
        · have := h.1 c hc
          simp only at this
          omega

/-! ### Reading and writing -/

theorem Memory.inRange_iff (m : Memory) (a : Int) : m.inRange a = true ↔ 0 ≤ a ∧ a < m.len := by
  simp [Memory.inRange]

theorem Memory.read_of_inRange {m : Memory} {a : Int} (h : m.inRange a = true) :
    m.read a = some (Memory.lookup m.cells a.toNat) := by
  simp [Memory.read, h]

theorem Memory.read_of_not_inRange {m : Memory} {a : Int} (h : ¬ m.inRange a = true) : m.read a = none := by
  simp [Memory.read, h]

/-- What a write can do: it succeeds exactly in range, and then it only replaces the cells. -/
theorem Memory.write_eq_some {m m' : Memory} {a : Int} {v : Word} (h : m.write a v = some m') :
    m.inRange a = true ∧ m' = ⟨m.len, Memory.insert m.cells a.toNat v⟩ := by
  unfold Memory.write at h
  split at h
  · exact ⟨by assumption, by simpa using h.symm⟩
  · cases h

theorem Memory.write_of_inRange {m : Memory} {a : Int} (v : Word) (h : m.inRange a = true) :
    m.write a v = some ⟨m.len, Memory.insert m.cells a.toNat v⟩ := by
  simp [Memory.write, h]

theorem Memory.write_of_not_inRange {m : Memory} {a : Int} (v : Word) (h : ¬ m.inRange a = true) :
    m.write a v = none := by
  simp [Memory.write, h]

/-- A write keeps `MEM_LEN` (R35). -/
theorem Memory.write_len {m m' : Memory} {a : Int} {v : Word} (h : m.write a v = some m') : m'.len = m.len := by
  rw [(Memory.write_eq_some h).2]

theorem Memory.write_inRange {m m' : Memory} {a : Int} {v : Word} (h : m.write a v = some m') (b : Int) :
    m'.inRange b = m.inRange b := by
  simp [Memory.inRange, Memory.write_len h]

/-- A read after a write to the same address gives the word written. -/
theorem Memory.read_write_same {m m' : Memory} {a : Int} {v : Word} (hwf : m.wf) (h : m.write a v = some m') :
    m'.read a = some v := by
  obtain ⟨hr, rfl⟩ := Memory.write_eq_some h
  rw [Memory.read_of_inRange (by simpa [Memory.inRange] using hr)]
  simp [Memory.lookup_insert_same m.cells a.toNat v hwf.1]

/-- A write leaves every other address alone. -/
theorem Memory.read_write_other {m m' : Memory} {a b : Int} {v : Word} (h : m.write a v = some m') (hb : b ≠ a) :
    m'.read b = m.read b := by
  obtain ⟨hr, rfl⟩ := Memory.write_eq_some h
  have hlen : Memory.inRange ⟨m.len, Memory.insert m.cells a.toNat v⟩ b = m.inRange b := rfl
  unfold Memory.read
  rw [hlen]
  split
  · rename_i hbr
    rw [Memory.inRange_iff] at hr hbr
    simp only [Option.some.injEq]
    exact Memory.lookup_insert_other m.cells a.toNat b.toNat v (by omega)
  · rfl

/-! ### The canonical form is kept -/

theorem Memory.write_wf {m m' : Memory} {a : Int} {v : Word} (hwf : m.wf) (h : m.write a v = some m') : m'.wf := by
  obtain ⟨hr, rfl⟩ := Memory.write_eq_some h
  refine ⟨Memory.pairwise_insert m.cells a.toNat v hwf.1, fun c hc => ?_⟩
  rw [Memory.inRange_iff] at hr
  rcases Memory.mem_insert m.cells hc with ⟨h1, h2⟩ | hc
  · exact ⟨h2, by simp only; omega⟩
  · exact hwf.2 c hc

theorem Memory.above_cellsFrom (a : Nat) (ws : List Word) : Memory.Above a (Memory.cellsFrom a ws) := by
  induction ws generalizing a with
  | nil => simp [Memory.cellsFrom, Memory.Above]
  | cons w ws ih =>
    intro c hc
    rcases Memory.mem_consCell hc with ⟨h, _⟩ | hc
    · omega
    · have := ih (a + 1) c hc
      omega

theorem Memory.cellsFrom_bound {a : Nat} {ws : List Word} {c : Nat × Word} (h : c ∈ Memory.cellsFrom a ws) :
    c.2 ≠ 0 ∧ c.1 < a + ws.length := by
  induction ws generalizing a with
  | nil => simp [Memory.cellsFrom] at h
  | cons w ws ih =>
    rcases Memory.mem_consCell h with ⟨h1, h2⟩ | hc
    · exact ⟨h2, by simp only [List.length_cons]; omega⟩
    · have := ih hc
      exact ⟨this.1, by simp only [List.length_cons]; omega⟩

theorem Memory.pairwise_cellsFrom (a : Nat) (ws : List Word) :
    (Memory.cellsFrom a ws).Pairwise (fun x y => x.1 < y.1) := by
  induction ws generalizing a with
  | nil => simp [Memory.cellsFrom]
  | cons w ws ih => exact Memory.pairwise_consCell (ih (a + 1)) (Memory.above_cellsFrom (a + 1) ws)

/-- A loaded memory is in canonical form. -/
theorem Memory.ofWords_wf (p : List Word) : (Memory.ofWords p).wf :=
  ⟨Memory.pairwise_cellsFrom 0 p, fun c hc => by
    have := Memory.cellsFrom_bound (a := 0) hc
    exact ⟨this.1, by simpa [Memory.ofWords] using this.2⟩⟩

theorem Memory.lookup_cellsFrom (a : Nat) (ws : List Word) (k : Nat) (h : k < ws.length) :
    Memory.lookup (Memory.cellsFrom a ws) (a + k) = ws[k] := by
  induction ws generalizing a k with
  | nil => simp at h
  | cons w ws ih =>
    cases k with
    | zero => exact Memory.lookup_consCell_same a w _ (Memory.above_cellsFrom (a + 1) ws)
    | succ k =>
      rw [Memory.cellsFrom, Memory.lookup_consCell_other a _ w _ (by omega),
        show a + (k + 1) = a + 1 + k by omega, ih (a + 1) k (by simpa using h)]
      simp

/-- Placing words keeps the canonical form. -/
theorem placeWords_wf (m : Memory) (a : Nat) (ws : List Word) (h : m.wf) : (placeWords m a ws).wf := by
  induction ws generalizing m a with
  | nil => exact h
  | cons w ws ih =>
    refine ih _ _ ⟨Memory.pairwise_insert m.cells a w h.1, fun c hc => ?_⟩
    rcases Memory.mem_insert m.cells hc with ⟨h1, h2⟩ | hc
    · exact ⟨h2, by simp only; omega⟩
    · have := h.2 c hc
      exact ⟨this.1, by simp only; omega⟩

/-- Reset memory is in canonical form. -/
theorem State.reset_mem_wf : State.reset.mem.wf := by simp [State.reset, Memory.wf]

end Sys2Proof.Machine
end

