-- ==== Sys2Proof/Laws/State.lean ====
section
/-! SUPPORT. The value of every field after every named update: one lemma per field per update, so that no proof
unfolds a record update. -/

namespace Sys2Proof.Machine

/-! ### `State.withMem` -/

@[simp] theorem State.withMem_config (m : Memory) (s : State) : (s.withMem m).config = s.config := rfl
@[simp] theorem State.withMem_mem (m : Memory) (s : State) : (s.withMem m).mem = m := rfl
@[simp] theorem State.withMem_ip (m : Memory) (s : State) : (s.withMem m).ip = s.ip := rfl
@[simp] theorem State.withMem_status (m : Memory) (s : State) : (s.withMem m).status = s.status := rfl
@[simp] theorem State.withMem_inq (m : Memory) (s : State) : (s.withMem m).inq = s.inq := rfl
@[simp] theorem State.withMem_inCur (m : Memory) (s : State) : (s.withMem m).inCur = s.inCur := rfl
@[simp] theorem State.withMem_outlog (m : Memory) (s : State) : (s.withMem m).outlog = s.outlog := rfl
@[simp] theorem State.withMem_faultCode (m : Memory) (s : State) : (s.withMem m).faultCode = s.faultCode := rfl
@[simp] theorem State.withMem_faultIp (m : Memory) (s : State) : (s.withMem m).faultIp = s.faultIp := rfl
@[simp] theorem State.withMem_faultInfo (m : Memory) (s : State) : (s.withMem m).faultInfo = s.faultInfo := rfl

/-! ### `State.withIp` -/

@[simp] theorem State.withIp_config (p : Pointer) (s : State) : (s.withIp p).config = s.config := rfl
@[simp] theorem State.withIp_mem (p : Pointer) (s : State) : (s.withIp p).mem = s.mem := rfl
@[simp] theorem State.withIp_ip (p : Pointer) (s : State) : (s.withIp p).ip = p := rfl
@[simp] theorem State.withIp_status (p : Pointer) (s : State) : (s.withIp p).status = s.status := rfl
@[simp] theorem State.withIp_inq (p : Pointer) (s : State) : (s.withIp p).inq = s.inq := rfl
@[simp] theorem State.withIp_inCur (p : Pointer) (s : State) : (s.withIp p).inCur = s.inCur := rfl
@[simp] theorem State.withIp_outlog (p : Pointer) (s : State) : (s.withIp p).outlog = s.outlog := rfl
@[simp] theorem State.withIp_faultCode (p : Pointer) (s : State) : (s.withIp p).faultCode = s.faultCode := rfl
@[simp] theorem State.withIp_faultIp (p : Pointer) (s : State) : (s.withIp p).faultIp = s.faultIp := rfl
@[simp] theorem State.withIp_faultInfo (p : Pointer) (s : State) : (s.withIp p).faultInfo = s.faultInfo := rfl

/-! ### `State.withStatus` -/

@[simp] theorem State.withStatus_config (st : Status) (s : State) : (s.withStatus st).config = s.config := rfl
@[simp] theorem State.withStatus_mem (st : Status) (s : State) : (s.withStatus st).mem = s.mem := rfl
@[simp] theorem State.withStatus_ip (st : Status) (s : State) : (s.withStatus st).ip = s.ip := rfl
@[simp] theorem State.withStatus_status (st : Status) (s : State) : (s.withStatus st).status = st := rfl
@[simp] theorem State.withStatus_inq (st : Status) (s : State) : (s.withStatus st).inq = s.inq := rfl
@[simp] theorem State.withStatus_inCur (st : Status) (s : State) : (s.withStatus st).inCur = s.inCur := rfl
@[simp] theorem State.withStatus_outlog (st : Status) (s : State) : (s.withStatus st).outlog = s.outlog := rfl
@[simp] theorem State.withStatus_faultCode (st : Status) (s : State) : (s.withStatus st).faultCode = s.faultCode := rfl
@[simp] theorem State.withStatus_faultIp (st : Status) (s : State) : (s.withStatus st).faultIp = s.faultIp := rfl
@[simp] theorem State.withStatus_faultInfo (st : Status) (s : State) : (s.withStatus st).faultInfo = s.faultInfo := rfl

/-! ### `State.withCursor` -/

@[simp] theorem State.withCursor_config (n : Nat) (s : State) : (s.withCursor n).config = s.config := rfl
@[simp] theorem State.withCursor_mem (n : Nat) (s : State) : (s.withCursor n).mem = s.mem := rfl
@[simp] theorem State.withCursor_ip (n : Nat) (s : State) : (s.withCursor n).ip = s.ip := rfl
@[simp] theorem State.withCursor_status (n : Nat) (s : State) : (s.withCursor n).status = s.status := rfl
@[simp] theorem State.withCursor_inq (n : Nat) (s : State) : (s.withCursor n).inq = s.inq := rfl
@[simp] theorem State.withCursor_inCur (n : Nat) (s : State) : (s.withCursor n).inCur = n := rfl
@[simp] theorem State.withCursor_outlog (n : Nat) (s : State) : (s.withCursor n).outlog = s.outlog := rfl
@[simp] theorem State.withCursor_faultCode (n : Nat) (s : State) : (s.withCursor n).faultCode = s.faultCode := rfl
@[simp] theorem State.withCursor_faultIp (n : Nat) (s : State) : (s.withCursor n).faultIp = s.faultIp := rfl
@[simp] theorem State.withCursor_faultInfo (n : Nat) (s : State) : (s.withCursor n).faultInfo = s.faultInfo := rfl

/-! ### `State.withInput` -/

@[simp] theorem State.withInput_config (q : List Word) (s : State) : (s.withInput q).config = s.config := rfl
@[simp] theorem State.withInput_mem (q : List Word) (s : State) : (s.withInput q).mem = s.mem := rfl
@[simp] theorem State.withInput_ip (q : List Word) (s : State) : (s.withInput q).ip = s.ip := rfl
@[simp] theorem State.withInput_status (q : List Word) (s : State) : (s.withInput q).status = s.status := rfl
@[simp] theorem State.withInput_inq (q : List Word) (s : State) : (s.withInput q).inq = q := rfl
@[simp] theorem State.withInput_inCur (q : List Word) (s : State) : (s.withInput q).inCur = s.inCur := rfl
@[simp] theorem State.withInput_outlog (q : List Word) (s : State) : (s.withInput q).outlog = s.outlog := rfl
@[simp] theorem State.withInput_faultCode (q : List Word) (s : State) : (s.withInput q).faultCode = s.faultCode := rfl
@[simp] theorem State.withInput_faultIp (q : List Word) (s : State) : (s.withInput q).faultIp = s.faultIp := rfl
@[simp] theorem State.withInput_faultInfo (q : List Word) (s : State) : (s.withInput q).faultInfo = s.faultInfo := rfl

/-! ### `State.withOutput` -/

@[simp] theorem State.withOutput_config (l : List Word) (s : State) : (s.withOutput l).config = s.config := rfl
@[simp] theorem State.withOutput_mem (l : List Word) (s : State) : (s.withOutput l).mem = s.mem := rfl
@[simp] theorem State.withOutput_ip (l : List Word) (s : State) : (s.withOutput l).ip = s.ip := rfl
@[simp] theorem State.withOutput_status (l : List Word) (s : State) : (s.withOutput l).status = s.status := rfl
@[simp] theorem State.withOutput_inq (l : List Word) (s : State) : (s.withOutput l).inq = s.inq := rfl
@[simp] theorem State.withOutput_inCur (l : List Word) (s : State) : (s.withOutput l).inCur = s.inCur := rfl
@[simp] theorem State.withOutput_outlog (l : List Word) (s : State) : (s.withOutput l).outlog = l := rfl
@[simp] theorem State.withOutput_faultCode (l : List Word) (s : State) : (s.withOutput l).faultCode = s.faultCode := rfl
@[simp] theorem State.withOutput_faultIp (l : List Word) (s : State) : (s.withOutput l).faultIp = s.faultIp := rfl
@[simp] theorem State.withOutput_faultInfo (l : List Word) (s : State) : (s.withOutput l).faultInfo = s.faultInfo := rfl

/-! ### `takeFault` -/

@[simp] theorem takeFault_config (t : Trap) (s : State) : (takeFault t s).config = s.config := rfl
@[simp] theorem takeFault_mem (t : Trap) (s : State) : (takeFault t s).mem = s.mem := rfl
@[simp] theorem takeFault_ip (t : Trap) (s : State) : (takeFault t s).ip = s.ip := rfl
@[simp] theorem takeFault_status (t : Trap) (s : State) : (takeFault t s).status = .faulted := rfl
@[simp] theorem takeFault_inq (t : Trap) (s : State) : (takeFault t s).inq = s.inq := rfl
@[simp] theorem takeFault_inCur (t : Trap) (s : State) : (takeFault t s).inCur = s.inCur := rfl
@[simp] theorem takeFault_outlog (t : Trap) (s : State) : (takeFault t s).outlog = s.outlog := rfl
@[simp] theorem takeFault_faultCode (t : Trap) (s : State) : (takeFault t s).faultCode = t.code := rfl
@[simp] theorem takeFault_faultIp (t : Trap) (s : State) : (takeFault t s).faultIp = s.ip := rfl
@[simp] theorem takeFault_faultInfo (t : Trap) (s : State) : (takeFault t s).faultInfo = t.info := rfl

/-! ### `takeHostFault` -/

@[simp] theorem takeHostFault_of_faulted (t : Trap) (s : State) (h : s.status = .faulted) : takeHostFault t s = s := by
  simp [takeHostFault, h]

@[simp] theorem takeHostFault_of_not_faulted (t : Trap) (s : State) (h : s.status ≠ .faulted) :
    takeHostFault t s = takeFault t s := by
  simp [takeHostFault, h]

/-- Two states with the same fields are the same state. -/
theorem State.ext_fields {s t : State} (h1 : s.config = t.config) (h2 : s.mem = t.mem) (h3 : s.ip = t.ip)
    (h4 : s.status = t.status) (h5 : s.inq = t.inq) (h6 : s.inCur = t.inCur) (h7 : s.outlog = t.outlog)
    (h8 : s.faultCode = t.faultCode) (h9 : s.faultIp = t.faultIp) (h10 : s.faultInfo = t.faultInfo) : s = t := by
  cases s; cases t; simp_all

end Sys2Proof.Machine
end

