-- ==== Sys2Proof/Laws/Ops.lean ====
section
/-! SUPPORT. For each shared operation, once, everything it can do; proofs cite these instead of unfolding it. -/

namespace Sys2Proof.Machine

/-! ### Memory access -/

theorem memRead_ok {a : Int} {s : State} {w : Word} : memRead a s = .ok w ↔ s.mem.read a = some w := by
  unfold memRead
  cases s.mem.read a <;> simp

theorem memRead_error {a : Int} {s : State} {t : Trap} :
    memRead a s = .error t ↔ s.mem.inRange a = false ∧ t = addressTrap a := by
  unfold memRead Memory.read
  cases s.mem.inRange a <;> simp [eq_comm]

/-- A read depends on memory only. -/
theorem memRead_congr {a : Int} {s t : State} (h : s.mem = t.mem) : memRead a s = memRead a t := by
  unfold memRead
  rw [h]

theorem memWrite_ok {a : Int} {v : Word} {s t : State} (h : memWrite a v s = .ok t) :
    ∃ m, s.mem.write a v = some m ∧ t = s.withMem m := by
  unfold memWrite at h
  split at h
  · exact ⟨_, by assumption, by simpa using h.symm⟩
  · cases h

theorem memWrite_of_inRange {a : Int} (v : Word) {s : State} (h : s.mem.inRange a = true) :
    memWrite a v s = .ok (s.withMem ⟨s.mem.len, Memory.insert s.mem.cells a.toNat v⟩) := by
  simp [memWrite, Memory.write_of_inRange v h]

theorem memWrite_error {a : Int} {v : Word} {s : State} {t : Trap} (h : memWrite a v s = .error t) :
    s.mem.inRange a = false ∧ t = addressTrap a := by
  unfold memWrite at h
  split at h
  · cases h
  · rename_i hw
    refine ⟨?_, by simpa using h.symm⟩
    cases hr : s.mem.inRange a
    · rfl
    · rw [Memory.write_of_inRange v hr] at hw
      cases hw

theorem checkTarget_ok {a : Int} {s : State} : checkTarget a s = .ok () ↔ s.mem.inRange a = true := by
  unfold checkTarget
  split <;> simp_all

theorem checkTarget_error {a : Int} {s : State} {t : Trap} :
    checkTarget a s = .error t ↔ s.mem.inRange a = false ∧ t = addressTrap a := by
  unfold checkTarget
  cases s.mem.inRange a <;> simp [eq_comm]

/-! ### Operands -/

theorem resolve_immediate (w : Word) (s : State) : resolve ⟨.immediate, w⟩ s = .ok w := rfl

theorem resolve_position (w : Word) (s : State) : resolve ⟨.position, w⟩ s = memRead w.toInt s := rfl

theorem resolve_error {o : Operand} {s : State} {t : Trap} (h : resolve o s = .error t) :
    o.mode = .position ∧ s.mem.inRange o.raw.toInt = false ∧ t = addressTrap o.raw.toInt := by
  obtain ⟨m, w⟩ := o
  cases m
  · exact ⟨rfl, memRead_error.1 h⟩
  · cases h

/-! ### The I/O channel -/

theorem nextInput_some {s t : State} {v : Word} (h : nextInput s = some (v, t)) :
    s.inCur < s.inq.length ∧ s.inq[s.inCur]? = some v ∧ t = s.withCursor (s.inCur + 1) := by
  unfold nextInput at h
  split at h
  · rename_i w hw
    simp only [Option.some.injEq, Prod.mk.injEq] at h
    exact ⟨(List.getElem?_eq_some_iff.1 hw).1, h.1 ▸ hw, h.2.symm⟩
  · cases h

theorem nextInput_none {s : State} : nextInput s = none ↔ inputAvailable s = false := by
  unfold nextInput inputAvailable
  split
  · rename_i w hw
    have := (List.getElem?_eq_some_iff.1 hw).1
    simp [this]
  · rename_i hw
    simpa using hw

theorem emit_ok {v : Word} {s t : State} (h : emit v s = .ok t) :
    s.config.outCap ≠ some s.outlog.length ∧ t = s.withOutput (s.outlog ++ [v]) := by
  unfold emit at h
  split at h
  · cases h
  · exact ⟨by assumption, by simpa using h.symm⟩

theorem emit_error {v : Word} {s : State} {t : Trap} (h : emit v s = .error t) :
    s.config.outCap = some s.outlog.length ∧ t = ⟨.outputFull, v⟩ := by
  unfold emit at h
  split at h
  · exact ⟨by assumption, by simpa using h.symm⟩
  · cases h

theorem pushInput_some {v : Word} {s t : State} (h : pushInput v s = some t) :
    s.config.inCap ≠ some s.inq.length ∧
      (s.status = .blocked ∧ t = (s.withInput (s.inq ++ [v])).withStatus .running ∨
        s.status ≠ .blocked ∧ t = s.withInput (s.inq ++ [v])) := by
  unfold pushInput at h
  split at h
  · cases h
  · refine ⟨by assumption, ?_⟩
    split at h
    · exact .inl ⟨by assumption, by simpa using h.symm⟩
    · exact .inr ⟨by assumption, by simpa using h.symm⟩

/-! ### The range check -/

theorem narrow_of_inInt64 (p : OverflowPolicy) {r : Int} (h : InInt64 r) : narrow p r = .ok (BitVec.ofInt 64 r) := by
  simp [narrow, h]

theorem narrow_error {p : OverflowPolicy} {r : Int} {t : Trap} (h : narrow p r = .error t) :
    ¬ InInt64 r ∧ p = .fault ∧ t = ⟨.overflow, wrap64 r⟩ := by
  unfold narrow at h
  split at h
  · cases h
  · cases p
    · exact ⟨by assumption, rfl, by simpa using h.symm⟩
    · cases h

/-- An `Int64` survives the trip through a word. -/
theorem toInt_ofInt {r : Int} (h : InInt64 r) : (BitVec.ofInt 64 r).toInt = r := by
  rw [BitVec.toInt_ofInt]
  exact Int.bmod_eq_of_le (by omega) (by omega)

/-- A non-negative word is the pointer of the same value. -/
theorem toNat_of_nonneg {w : Word} (h : ¬ w.toInt < 0) :
    (w.toNat : Int) = w.toInt ∧ w.toNat ≤ 9223372036854775807 := by
  have hw := w.isLt
  have := BitVec.toInt_eq_toNat_cond w
  split at this <;> omega

/-! ### Ending an instruction -/

/-- Everything `finish` can do. -/
theorem finish_next {s t : State} {r : Except Trap State} (h : finish s r = .next t) :
    r = .ok t ∨ ∃ e, r = .error e ∧ t = takeFault e s := by
  cases r with
  | ok u =>
    left
    simpa [finish] using h
  | error e =>
    right
    exact ⟨e, rfl, by simpa [finish] using h.symm⟩

theorem finish_ok (s t : State) : finish s (.ok t) = .next t := rfl

theorem finish_error (s : State) (e : Trap) : finish s (.error e) = .next (takeFault e s) := rfl

/-! ### The execute phases -/

/-- Everything the execute phase of ADD, MUL, LT and EQ does when it succeeds. -/
theorem writeResult_ok {a b : Operand} {c : Target} {f : Int → Int → Except Trap Word} {s t : State}
    (h : writeResult a b c f s = .ok t) :
    ∃ x y r m, resolve a s = .ok x ∧ resolve b s = .ok y ∧ s.mem.inRange (targetAddress c) = true ∧
      f x.toInt y.toInt = .ok r ∧ s.mem.write (targetAddress c) r = some m ∧
      t = (s.withMem m).withIp (s.ip + 4) := by
  simp only [writeResult, bind, Except.bind] at h
  split at h
  · cases h
  · rename_i x hx
    split at h
    · cases h
    · rename_i y hy
      split at h
      · cases h
      · rename_i hc
        split at h
        · cases h
        · rename_i r hr
          split at h
          · cases h
          · rename_i u hu
            obtain ⟨m, hm, rfl⟩ := memWrite_ok hu
            exact ⟨x, y, r, m, hx, hy, checkTarget_ok.1 hc, hr, hm, by simpa [pure, Except.pure] using h.symm⟩

/-- The faults of that phase, in their order (R109): operand 1, operand 2, the write target, the result. -/
theorem writeResult_error {a b : Operand} {c : Target} {f : Int → Int → Except Trap Word} {s : State} {e : Trap}
    (h : writeResult a b c f s = .error e) :
    resolve a s = .error e ∨
    (∃ x, resolve a s = .ok x ∧ resolve b s = .error e) ∨
    (∃ x y, resolve a s = .ok x ∧ resolve b s = .ok y ∧
      (s.mem.inRange (targetAddress c) = false ∧ e = addressTrap (targetAddress c) ∨
        s.mem.inRange (targetAddress c) = true ∧ f x.toInt y.toInt = .error e)) := by
  simp only [writeResult, bind, Except.bind] at h
  split at h
  · rename_i e' he
    left
    rw [he]
    exact congrArg _ (by simpa using h)
  · rename_i x hx
    right
    split at h
    · rename_i e' he
      left
      exact ⟨x, hx, by rw [he]; exact congrArg _ (by simpa using h)⟩
    · rename_i y hy
      right
      refine ⟨x, y, hx, hy, ?_⟩
      split at h
      · rename_i e' he
        left
        have := checkTarget_error.1 he
        exact ⟨this.1, by rw [← this.2]; simpa using h.symm⟩
      · rename_i hc
        right
        have hin := checkTarget_ok.1 hc
        refine ⟨hin, ?_⟩
        split at h
        · rename_i e' he
          rw [he]
          exact congrArg _ (by simpa using h)
        · rename_i r hr
          rw [memWrite_of_inRange r hin] at h
          simp [pure, Except.pure] at h

/-- The execute phase of ADD, MUL, LT and EQ, its operands resolved and its target in range. -/
theorem writeResult_of_resolved {a b : Operand} {c : Target} {f : Int → Int → Except Trap Word} {s : State}
    {x y : Word} (hx : resolve a s = .ok x) (hy : resolve b s = .ok y)
    (hc : s.mem.inRange (targetAddress c) = true) :
    writeResult a b c f s = (f x.toInt y.toInt).bind (fun r =>
      .ok ((s.withMem ⟨s.mem.len, Memory.insert s.mem.cells (targetAddress c).toNat r⟩).withIp (s.ip + 4))) := by
  simp only [writeResult, bind, Except.bind, hx, hy, checkTarget_ok.2 hc]
  cases f x.toInt y.toInt with
  | error e => rfl
  | ok r => simp [memWrite_of_inRange r hc, pure, Except.pure]

/-- Everything the execute phase of IN does when it succeeds: it blocks, or it stores the next input. -/
theorem readInput_ok {c : Target} {s t : State} (h : readInput c s = .ok t) :
    s.mem.inRange (targetAddress c) = true ∧
    (inputAvailable s = false ∧ t = s.withStatus .blocked ∨
      ∃ v m, s.inCur < s.inq.length ∧ s.inq[s.inCur]? = some v ∧ s.mem.write (targetAddress c) v = some m ∧
        t = ((s.withCursor (s.inCur + 1)).withMem m).withIp (s.ip + 2)) := by
  simp only [readInput, bind, Except.bind] at h
  split at h
  · cases h
  · rename_i hc
    refine ⟨checkTarget_ok.1 hc, ?_⟩
    split at h
    · rename_i hn
      left
      exact ⟨nextInput_none.1 hn, by simpa [pure, Except.pure] using h.symm⟩
    · rename_i v u hv
      right
      obtain ⟨h1, h2, rfl⟩ := nextInput_some hv
      split at h
      · cases h
      · rename_i w hw
        obtain ⟨m, hm, rfl⟩ := memWrite_ok hw
        exact ⟨v, m, h1, h2, by simpa using hm, by simpa [pure, Except.pure] using h.symm⟩

/-- The only fault of IN is its write target's (R84). -/
theorem readInput_error {c : Target} {s : State} {e : Trap} (h : readInput c s = .error e) :
    s.mem.inRange (targetAddress c) = false ∧ e = addressTrap (targetAddress c) := by
  simp only [readInput, bind, Except.bind] at h
  split at h
  · rename_i e' he
    have := checkTarget_error.1 he
    exact ⟨this.1, by rw [← this.2]; simpa using h.symm⟩
  · split at h
    · cases h
    · rename_i v u hv
      obtain ⟨-, -, rfl⟩ := nextInput_some hv
      split at h
      · rename_i e' he
        have := memWrite_error he
        exact ⟨by simpa using this.1, by rw [← this.2]; simpa using h.symm⟩
      · cases h

/-- Everything the execute phase of OUT does when it succeeds. -/
theorem writeOutput_ok {a : Operand} {s t : State} (h : writeOutput a s = .ok t) :
    ∃ v, resolve a s = .ok v ∧ s.config.outCap ≠ some s.outlog.length ∧
      t = (s.withOutput (s.outlog ++ [v])).withIp (s.ip + 2) := by
  simp only [writeOutput, bind, Except.bind] at h
  split at h
  · cases h
  · rename_i v hv
    split at h
    · cases h
    · rename_i u hu
      obtain ⟨h1, rfl⟩ := emit_ok hu
      exact ⟨v, hv, h1, by simpa [pure, Except.pure] using h.symm⟩

/-- The faults of OUT: its operand's, then the full log (R109). -/
theorem writeOutput_error {a : Operand} {s : State} {e : Trap} (h : writeOutput a s = .error e) :
    resolve a s = .error e ∨
      ∃ v, resolve a s = .ok v ∧ s.config.outCap = some s.outlog.length ∧ e = ⟨.outputFull, v⟩ := by
  simp only [writeOutput, bind, Except.bind] at h
  split at h
  · rename_i e' he
    left
    rw [he]
    exact congrArg _ (by simpa using h)
  · rename_i v hv
    right
    split at h
    · rename_i e' he
      have := emit_error he
      exact ⟨v, hv, this.1, by rw [← this.2]; simpa using h.symm⟩
    · cases h

/-- Everything the execute phase of a jump does when it succeeds. -/
theorem jumpIf_ok {k : Int → Bool} {a b : Operand} {s t : State} (h : jumpIf k a b s = .ok t) :
    ∃ x, resolve a s = .ok x ∧
      (k x.toInt = true ∧ (∃ y, resolve b s = .ok y ∧ ¬ y.toInt < 0 ∧ t = s.withIp y) ∨
        k x.toInt = false ∧ t = s.withIp (s.ip + 3)) := by
  simp only [jumpIf, bind, Except.bind] at h
  split at h
  · cases h
  · rename_i x hx
    refine ⟨x, hx, ?_⟩
    split at h
    · rename_i hk
      left
      refine ⟨hk, ?_⟩
      split at h
      · cases h
      · rename_i y hy
        split at h
        · cases h
        · exact ⟨y, hy, by assumption, by simpa [pure, Except.pure] using h.symm⟩
    · rename_i hk
      right
      exact ⟨by simpa using hk, by simpa [pure, Except.pure] using h.symm⟩

/-- The faults of a jump, in their order (R109): the condition; if taken, the target's read, then its sign. -/
theorem jumpIf_error {k : Int → Bool} {a b : Operand} {s : State} {e : Trap} (h : jumpIf k a b s = .error e) :
    resolve a s = .error e ∨
      ∃ x, resolve a s = .ok x ∧ k x.toInt = true ∧
        (resolve b s = .error e ∨ ∃ y, resolve b s = .ok y ∧ y.toInt < 0 ∧ e = addressTrap y.toInt) := by
  simp only [jumpIf, bind, Except.bind] at h
  split at h
  · rename_i e' he
    left
    rw [he]
    exact congrArg _ (by simpa using h)
  · rename_i x hx
    right
    split at h
    · rename_i hk
      refine ⟨x, hx, hk, ?_⟩
      split at h
      · rename_i e' he
        left
        rw [he]
        exact congrArg _ (by simpa using h)
      · rename_i y hy
        right
        split at h
        · exact ⟨y, hy, by assumption, by simpa using h.symm⟩
        · cases h
    · cases h

end Sys2Proof.Machine
end

