-- ==== Sys2Proof/Laws/PerInstr.lean ====
section
/-! SUPPORT. Facts about every instruction as syntax, one lemma per constructor. -/

/-- The family: an instruction is well formed, its encoding has the length R47 gives it, and the opcode in its
instruction word has its arity (R48, R49). -/
def Sys2Proof.Laws.WellFormedFields.Statement (i : Sys2Proof.Instr) : Prop :=
  i.wellFormed = true ∧ (Sys2Proof.encode i).length = i.length ∧
    Sys2Proof.arityOf (i.head % 100) = some i.args.length

namespace Sys2Proof.Laws.WellFormedFields

open Sys2Proof

theorem add (a b : Operand) (c : Target) : Statement (.add a b c) := by
  obtain ⟨m1, x⟩ := a; obtain ⟨m2, y⟩ := b; obtain ⟨m3, z⟩ := c
  cases m1 <;> cases m2 <;> cases m3 <;> exact ⟨rfl, rfl, by simp [Instr.head, Mode.digit, arityOf, Instr.args]⟩

theorem mul (a b : Operand) (c : Target) : Statement (.mul a b c) := by
  obtain ⟨m1, x⟩ := a; obtain ⟨m2, y⟩ := b; obtain ⟨m3, z⟩ := c
  cases m1 <;> cases m2 <;> cases m3 <;> exact ⟨rfl, rfl, by simp [Instr.head, Mode.digit, arityOf, Instr.args]⟩

theorem inp (a : Target) : Statement (.inp a) := by
  obtain ⟨m1, x⟩ := a
  cases m1 <;> exact ⟨rfl, rfl, by simp [Instr.head, Mode.digit, arityOf, Instr.args]⟩

theorem out (a : Operand) : Statement (.out a) := by
  obtain ⟨m1, x⟩ := a
  cases m1 <;> exact ⟨rfl, rfl, by simp [Instr.head, Mode.digit, arityOf, Instr.args]⟩

theorem jnz (a b : Operand) : Statement (.jnz a b) := by
  obtain ⟨m1, x⟩ := a; obtain ⟨m2, y⟩ := b
  cases m1 <;> cases m2 <;> exact ⟨rfl, rfl, by simp [Instr.head, Mode.digit, arityOf, Instr.args]⟩

theorem jz (a b : Operand) : Statement (.jz a b) := by
  obtain ⟨m1, x⟩ := a; obtain ⟨m2, y⟩ := b
  cases m1 <;> cases m2 <;> exact ⟨rfl, rfl, by simp [Instr.head, Mode.digit, arityOf, Instr.args]⟩

theorem lt (a b : Operand) (c : Target) : Statement (.lt a b c) := by
  obtain ⟨m1, x⟩ := a; obtain ⟨m2, y⟩ := b; obtain ⟨m3, z⟩ := c
  cases m1 <;> cases m2 <;> cases m3 <;> exact ⟨rfl, rfl, by simp [Instr.head, Mode.digit, arityOf, Instr.args]⟩

theorem eq (a b : Operand) (c : Target) : Statement (.eq a b c) := by
  obtain ⟨m1, x⟩ := a; obtain ⟨m2, y⟩ := b; obtain ⟨m3, z⟩ := c
  cases m1 <;> cases m2 <;> cases m3 <;> exact ⟨rfl, rfl, by simp [Instr.head, Mode.digit, arityOf, Instr.args]⟩

theorem halt : Statement .halt := ⟨rfl, rfl, rfl⟩

end Sys2Proof.Laws.WellFormedFields
end

