-- ==== Sys2Proof/Laws/Step.lean ====
section
/-! SUPPORT. Everything a fetch, an instruction, a step and a host operation can do, said once. -/

namespace Sys2Proof.Machine

/-! ### Fetch -/

/-- What a complete instruction is made of: its head's opcode and modes, its argument words in order. -/
theorem Head.complete_ok {ε : Type} {arg : Nat → Except ε Word} {h : Head} {i : Instr}
    (hi : h.complete arg = .ok i) :
    i.args.length = h.arity ∧ ∀ k (hk : k < i.args.length), arg (k + 1) = .ok i.args[k] := by
  cases h <;> simp only [Head.complete, bind, Except.bind] at hi <;>
    repeat' first
    | (split at hi; · cases hi)
    | (cases hi
       refine ⟨rfl, fun k hk => ?_⟩
       simp only [Instr.args, List.length_cons, List.length_nil] at hk
       rcases k with _ | _ | _ | k <;> first | omega | simpa [Instr.args])

/-- What a fetch that succeeds has read: the instruction word, and every argument word at its address. -/
theorem fetchInstr_ok {s : State} {i : Instr} (h : fetchInstr s = .ok i) :
    ∃ w hd, s.mem.read s.ip.toNat = some w ∧ decodeHead w = .ok hd ∧
      hd.complete (fun k => memRead (s.ip.toNat + k) s) = .ok i := by
  unfold fetchInstr at h
  split at h
  · cases h
  · rename_i w hw
    split at h
    · cases h
    · rename_i hd hhd
      exact ⟨w, hd, memRead_ok.1 hw, hhd, h⟩

/-- Every argument word of a fetched instruction lies in memory, so the instruction ends at or below `MEM_LEN`. -/
theorem fetchInstr_fits {s : State} {i : Instr} (h : fetchInstr s = .ok i) : s.ip.toNat + i.length ≤ s.mem.len := by
  obtain ⟨w, hd, hw, -, hc⟩ := fetchInstr_ok h
  obtain ⟨-, hargs⟩ := Head.complete_ok hc
  have hin : ∀ a : Int, (∃ v, s.mem.read a = some v) → a < s.mem.len := by
    rintro a ⟨v, hv⟩
    by_contra hlt
    rw [Memory.read_of_not_inRange (by rw [Memory.inRange_iff]; omega)] at hv
    cases hv
  cases hn : i.args.length with
  | zero =>
    have := hin _ ⟨w, hw⟩
    simp only [Instr.length, hn]
    omega
  | succ n =>
    have := hin _ ⟨_, memRead_ok.1 (hargs n (by omega))⟩
    simp only [Instr.length, hn]
    omega

/-- The faults of the decoder carry a fault code. -/
theorem decodeTrap_code (ip : Pointer) (e : DecodeError) : (decodeTrap ip e).code ≠ .noFault := by
  cases e <;> simp [decodeTrap, addressTrap]

theorem Head.complete_error {ε : Type} {arg : Nat → Except ε Word} {h : Head} {e : ε}
    (he : h.complete arg = .error e) : ∃ k, 1 ≤ k ∧ k ≤ h.arity ∧ arg k = .error e := by
  cases h <;> simp only [Head.complete, bind, Except.bind] at he <;>
    repeat' first
    | (split at he
       · rename_i hx
         cases he
         first
         | exact ⟨1, by omega, by simp [Head.arity], hx⟩
         | exact ⟨2, by omega, by simp [Head.arity], hx⟩
         | exact ⟨3, by omega, by simp [Head.arity], hx⟩)
    | cases he

/-- A fetch that fails raises a fault with a code. -/
theorem fetchInstr_error_code {s : State} {e : Trap} (h : fetchInstr s = .error e) : e.code ≠ .noFault := by
  unfold fetchInstr at h
  split at h
  · rename_i t ht
    cases h
    rw [(memRead_error.1 ht).2]
    simp [addressTrap]
  · split at h
    · cases h
      exact decodeTrap_code _ _
    · obtain ⟨k, -, -, hk⟩ := Head.complete_error h
      rw [(memRead_error.1 hk).2]
      simp [addressTrap]

/-! ### Instructions -/

/-- The effects an instruction can have when it raises no fault. -/
inductive Effect (i : Instr) (s : State) : State → Prop where
  /-- ADD, MUL, LT, EQ: one word written at the write target, `ip` past four words -/
  | result (a : Int) (r : Word) (m : Memory) (ha : writeAddress i = some a) (hm : s.mem.write a r = some m)
      (hl : i.length = 4) : Effect i s ((s.withMem m).withIp (s.ip + 4))
  /-- IN with an unread input: it is stored, the cursor and `ip` move on -/
  | input (c : Target) (v : Word) (m : Memory) (hi : i = .inp c) (hv : s.inq[s.inCur]? = some v)
      (hm : s.mem.write (targetAddress c) v = some m) :
      Effect i s (((s.withCursor (s.inCur + 1)).withMem m).withIp (s.ip + 2))
  /-- IN with no unread input: the engine blocks -/
  | block (c : Target) (hi : i = .inp c) (hn : inputAvailable s = false)
      (hr : s.mem.inRange (targetAddress c) = true) : Effect i s (s.withStatus .blocked)
  /-- OUT: one value appended to the log -/
  | output (a : Operand) (v : Word) (hi : i = .out a) (hv : resolve a s = .ok v)
      (hc : s.config.outCap ≠ some s.outlog.length) :
      Effect i s ((s.withOutput (s.outlog ++ [v])).withIp (s.ip + 2))
  /-- a jump that is taken, to a non-negative target -/
  | taken (a b : Operand) (y : Word) (hi : i = .jnz a b ∨ i = .jz a b) (hy : resolve b s = .ok y)
      (h0 : ¬ y.toInt < 0) : Effect i s (s.withIp y)
  /-- a jump that is not taken -/
  | notTaken (a b : Operand) (hi : i = .jnz a b ∨ i = .jz a b) : Effect i s (s.withIp (s.ip + 3))
  /-- HALT -/
  | halted (hi : i = .halt) : Effect i s ((s.withStatus .finished).withIp (s.ip + 1))

theorem writeResult_effect {i : Instr} {a b : Operand} {c : Target} {f : Int → Int → Except Trap Word} {s t : State}
    (ha : writeAddress i = some (targetAddress c)) (hl : i.length = 4) (h : writeResult a b c f s = .ok t) :
    Effect i s t := by
  obtain ⟨x, y, r, m, -, -, -, -, hm, rfl⟩ := writeResult_ok h
  exact .result _ r m ha hm hl

theorem addressTrap_code (a : Int) : (addressTrap a).code ≠ .noFault := by simp [addressTrap]

theorem resolve_error_code {o : Operand} {s : State} {e : Trap} (h : resolve o s = .error e) : e.code ≠ .noFault := by
  rw [(resolve_error h).2.2]
  exact addressTrap_code _

theorem writeResult_error_code {a b : Operand} {c : Target} {f : Int → Int → Except Trap Word} {s : State} {e : Trap}
    (hf : ∀ x y e, f x y = .error e → e.code ≠ .noFault) (h : writeResult a b c f s = .error e) :
    e.code ≠ .noFault := by
  rcases writeResult_error h with h | ⟨x, -, h⟩ | ⟨x, y, -, -, ⟨-, rfl⟩ | ⟨-, h⟩⟩
  · exact resolve_error_code h
  · exact resolve_error_code h
  · exact addressTrap_code _
  · exact hf _ _ _ h

theorem narrow_error_code {p : OverflowPolicy} (x y e) (f : Int → Int → Int) (h : narrow p (f x y) = .error e) :
    e.code ≠ .noFault := by
  rw [(narrow_error h).2.2]
  simp

theorem jumpIf_effect {i : Instr} {k : Int → Bool} {a b : Operand} {s t : State} (hi : i = .jnz a b ∨ i = .jz a b)
    (h : jumpIf k a b s = .ok t) : Effect i s t := by
  obtain ⟨x, -, ⟨-, y, hy, h0, rfl⟩ | ⟨-, rfl⟩⟩ := jumpIf_ok h
  · exact .taken a b y hi hy h0
  · exact .notTaken a b hi

theorem jumpIf_error_code {k : Int → Bool} {a b : Operand} {s : State} {e : Trap} (h : jumpIf k a b s = .error e) :
    e.code ≠ .noFault := by
  rcases jumpIf_error h with h | ⟨x, -, -, h | ⟨y, -, -, rfl⟩⟩
  · exact resolve_error_code h
  · exact resolve_error_code h
  · exact addressTrap_code _

/-- Everything an instruction can do: it takes a fault that has a code, or it has one of the effects above. -/
theorem exec_next {i : Instr} {s t : State} (h : exec i s = .next t) :
    (∃ e : Trap, e.code ≠ .noFault ∧ t = takeFault e s) ∨ Effect i s t := by
  cases i with
  | add a b c =>
    rcases finish_next h with hx | ⟨e, hx, rfl⟩
    · exact .inr (writeResult_effect rfl rfl hx)
    · exact .inl ⟨e, writeResult_error_code (fun x y e => narrow_error_code x y e (· + ·)) hx, rfl⟩
  | mul a b c =>
    rcases finish_next h with hx | ⟨e, hx, rfl⟩
    · exact .inr (writeResult_effect rfl rfl hx)
    · exact .inl ⟨e, writeResult_error_code (fun x y e => narrow_error_code x y e (· * ·)) hx, rfl⟩
  | inp a =>
    rcases finish_next h with hx | ⟨e, hx, rfl⟩
    · obtain ⟨hr, ⟨hn, rfl⟩ | ⟨v, m, -, hv, hm, rfl⟩⟩ := readInput_ok hx
      · exact .inr (.block a rfl hn hr)
      · exact .inr (.input a v m rfl hv hm)
    · exact .inl ⟨e, by rw [(readInput_error hx).2]; exact addressTrap_code _, rfl⟩
  | out a =>
    rcases finish_next h with hx | ⟨e, hx, rfl⟩
    · obtain ⟨v, hv, hc, rfl⟩ := writeOutput_ok hx
      exact .inr (.output a v rfl hv hc)
    · refine .inl ⟨e, ?_, rfl⟩
      rcases writeOutput_error hx with h | ⟨v, -, -, rfl⟩
      · exact resolve_error_code h
      · simp
  | jnz a b =>
    rcases finish_next h with hx | ⟨e, hx, rfl⟩
    · exact .inr (jumpIf_effect (.inl rfl) hx)
    · exact .inl ⟨e, jumpIf_error_code hx, rfl⟩
  | jz a b =>
    rcases finish_next h with hx | ⟨e, hx, rfl⟩
    · exact .inr (jumpIf_effect (.inr rfl) hx)
    · exact .inl ⟨e, jumpIf_error_code hx, rfl⟩
  | lt a b c =>
    rcases finish_next h with hx | ⟨e, hx, rfl⟩
    · exact .inr (writeResult_effect rfl rfl hx)
    · exact .inl ⟨e, writeResult_error_code (fun x y e h => by cases h) hx, rfl⟩
  | eq a b c =>
    rcases finish_next h with hx | ⟨e, hx, rfl⟩
    · exact .inr (writeResult_effect rfl rfl hx)
    · exact .inl ⟨e, writeResult_error_code (fun x y e h => by cases h) hx, rfl⟩
  | halt =>
    have h : Host.Outcome.next ((s.withStatus .finished).withIp (s.ip + 1)) = .next t := h
    cases h
    exact .inr (.halted rfl)

/-! ### Steps -/

/-- Everything a step can do (R69, R70). -/
theorem step_next {s t : State} (h : step s = .next t) :
    (s.status ≠ .running ∧ t = s) ∨
    (s.status = .running ∧ ∃ e, fetchInstr s = .error e ∧ t = takeFault e s) ∨
    (s.status = .running ∧ ∃ i, fetchInstr s = .ok i ∧ exec i s = .next t) := by
  unfold step at h
  split at h
  · rename_i hr
    split at h
    · rename_i e he
      exact .inr (.inl ⟨hr, e, he, by simpa using h.symm⟩)
    · rename_i i hi
      exact .inr (.inr ⟨hr, i, hi, h⟩)
  · rename_i hr
    exact .inl ⟨hr, by simpa using h.symm⟩

/-- The same, an instruction's effects spelled out: a step leaves a stopped engine, takes a fault, or has the effect
of the fetched instruction. -/
theorem step_effect {s t : State} (h : step s = .next t) :
    (s.status ≠ .running ∧ t = s) ∨
    (s.status = .running ∧ ∃ e : Trap, e.code ≠ .noFault ∧ t = takeFault e s) ∨
    (s.status = .running ∧ ∃ i, fetchInstr s = .ok i ∧ Effect i s t) := by
  rcases step_next h with h | ⟨hr, e, he, rfl⟩ | ⟨hr, i, hi, hx⟩
  · exact .inl h
  · exact .inr (.inl ⟨hr, e, fetchInstr_error_code he, rfl⟩)
  · rcases exec_next hx with ⟨e, he, rfl⟩ | hf
    · exact .inr (.inl ⟨hr, e, he, rfl⟩)
    · exact .inr (.inr ⟨hr, i, hi, hf⟩)

/-! ### Host operations -/

/-- What a host operation leaves: the same state, one memory word replaced, one input pushed, a fault of a host
access, the state after a step, or the state after a run. -/
theorem hostOp_next {op : HostOp} {s t : State} {r : HostResponse} (h : hostOp op s = .next (r, t)) :
    t = s ∨ (∃ a v m, s.mem.write a v = some m ∧ t = s.withMem m) ∨ (∃ v, pushInput v s = some t) ∨
      (∃ a : Int, t = takeHostFault (addressTrap a) s) ∨ step s = .next t ∨
      (∃ n o, runFuel n s = .next (o, t)) := by
  cases op with
  | read a =>
    simp only [hostOp] at h
    split at h
    · simp only [Host.Outcome.next.injEq, Prod.mk.injEq] at h
      exact .inl h.2.symm
    · simp only [hostAccessFault, Host.Outcome.next.injEq, Prod.mk.injEq] at h
      exact .inr (.inr (.inr (.inl ⟨_, h.2.symm⟩)))
  | replace a v =>
    simp only [hostOp] at h
    split at h
    · rename_i m hm
      simp only [Host.Outcome.next.injEq, Prod.mk.injEq] at h
      exact .inr (.inl ⟨_, v, m, hm, h.2.symm⟩)
    · simp only [hostAccessFault, Host.Outcome.next.injEq, Prod.mk.injEq] at h
      exact .inr (.inr (.inr (.inl ⟨_, h.2.symm⟩)))
  | addInput v =>
    simp only [hostOp] at h
    split at h
    · rename_i u hu
      simp only [Host.Outcome.next.injEq, Prod.mk.injEq] at h
      exact .inr (.inr (.inl ⟨v, by rw [← h.2]; exact hu⟩))
    · simp only [Host.Outcome.next.injEq, Prod.mk.injEq] at h
      exact .inl h.2.symm
  | readOutputs | lastOutput | finished | blocked | faultStatus =>
    simp only [hostOp, Host.Outcome.next.injEq, Prod.mk.injEq] at h
    exact .inl h.2.symm
  | step =>
    simp only [hostOp] at h
    split at h
    · rename_i u hu
      simp only [Host.Outcome.next.injEq, Prod.mk.injEq] at h
      exact .inr (.inr (.inr (.inr (.inl (by rw [← h.2]; exact hu)))))
    · cases h
    · cases h
  | run n =>
    simp only [hostOp] at h
    split at h
    · rename_i u hu
      simp only [Host.Outcome.next.injEq, Prod.mk.injEq] at h
      exact .inr (.inr (.inr (.inr (.inr ⟨n, _, by rw [← h.2]; exact hu⟩))))
    · rename_i u hu
      simp only [Host.Outcome.next.injEq, Prod.mk.injEq] at h
      exact .inr (.inr (.inr (.inr (.inr ⟨n, _, by rw [← h.2]; exact hu⟩))))
    · cases h
    · cases h

/-- A property that every step keeps is kept by a run: the one induction over `runFuel`. -/
theorem runFuel_keeps {P : State → Prop} (hP : ∀ s t, P s → step s = .next t → P t) {n : Nat} {s t : State}
    {o : Option Status} (hs : P s) (h : runFuel n s = .next (o, t)) : P t := by
  induction n generalizing s with
  | zero =>
    simp only [runFuel, Host.Outcome.next.injEq, Prod.mk.injEq] at h
    exact h.2 ▸ hs
  | succ n ih =>
    unfold runFuel at h
    split at h
    · rename_i u hu
      split at h
      · exact ih (hP s u hs hu) h
      · simp only [Host.Outcome.next.injEq, Prod.mk.injEq] at h
        exact h.2 ▸ hP s u hs hu
    · cases h
    · cases h

/-- One step of a run of any machine behind the host's interface. -/
theorem coreRun_succ {M : Host.Core} {n : Nat} {s u : M.State} (h : M.step s = .next u) :
    M.run (n + 1) s = M.run n u := by
  simp [Host.Core.run, h]

/-- A property that every step of a machine keeps is kept by its runs: the one induction over them. -/
theorem coreRun_keeps {M : Host.Core} {P : M.State → Prop} (hP : ∀ s t, P s → M.step s = .next t → P t) {n : Nat}
    {s t : M.State} (hs : P s) (h : M.run n s = .next t) : P t := by
  induction n generalizing s with
  | zero =>
    simp only [Host.Core.run, Host.Outcome.next.injEq] at h
    exact h ▸ hs
  | succ n ih =>
    unfold Host.Core.run at h
    split at h
    · rename_i u hu
      exact ih (hP s u hs hu) h
    · cases h
    · cases h

/-- A property that every step keeps is kept by the host's `run` of this machine. -/
theorem run_keeps {P : State → Prop} (hP : ∀ s t, P s → step s = .next t → P t) {n : Nat} {s t : State} (hs : P s)
    (h : Host.Core.run Sys2Proof.core n s = .next t) : P t :=
  coreRun_keeps (M := Sys2Proof.core) (P := P) hP hs h

end Sys2Proof.Machine
end

