-- ==== Sys2Proof/Tests/Slice0.lean ====
section
/-! SUPPORT. Tests. Expected results are the spec's own: its decode table (R68), its worked examples and its derived
vectors (95_test_vectors.md sections 1 to 3), or read off the encoding rules (R65, R82 to R91). At the end, for every
statement with hypotheses, a state and operands that meet them. -/

namespace Sys2Proof.Machine.Tests

open Sys2Proof Sys2Proof.Machine

/-! ### Small states -/

/-- The engine of a program, at its reset state. -/
def prog (p : List Word) : State := { State.reset with mem := Memory.ofWords p }

/-- The same with inputs pushed. -/
def progIn (p q : List Word) : State := { prog p with inq := q }

/-- The same under `OVERFLOW_POLICY = WRAP`. -/
def progWrap (p : List Word) : State := { prog p with config := { Config.thisHardware with overflow := .wrap } }

/-- The state of an outcome. -/
def out? (o : Host.Outcome State Fault Refusal) : Option State :=
  match o with
  | .next s => some s
  | .fault _ => none
  | .refused _ => none

/-- What one step leaves of memory at an address. -/
def memAfter (s : State) (a : Int) : Option Word := (out? (step s)).bind (fun t => t.mem.read a)

/-- What one step leaves of `ip` and `state`. -/
def ipAfter (s : State) : Option (Pointer × Status) := (out? (step s)).map (fun t => (t.ip, t.status))

/-- The fault record one step leaves. -/
def recordAfter (s : State) : Option (FaultCode × Pointer × Word) :=
  (out? (step s)).map (fun t => (t.faultCode, t.faultIp, t.faultInfo))

abbrev pos (w : Word) : Operand := ⟨.position, w⟩
abbrev im (w : Word) : Operand := ⟨.immediate, w⟩
abbrev dst (w : Word) : Target := ⟨.position, w⟩

/-! ### The well-formedness checks refuse -/

theorem test_fields_ok : (Fields.mk 2 [0, 1, 0] [4, 3, 4]).wellFormed = true := by decide
theorem test_fields_opcode_refused : (Fields.mk 9 [] []).wellFormed = false := by decide
theorem test_fields_digit_count_refused : (Fields.mk 99 [1] []).wellFormed = false := by decide
theorem test_fields_digit_value_refused : (Fields.mk 4 [2] [0]).wellFormed = false := by decide
theorem test_fields_args_refused : (Fields.mk 4 [0] []).wellFormed = false := by decide
theorem test_config_zero_refused : ¬ Config.wf { Config.thisHardware with maxMemLen := 0 } := by decide
theorem test_config_large_refused :
    ¬ Config.wf { Config.thisHardware with maxMemLen := 9223372036854775808 } := by decide
theorem test_config_ok : Config.thisHardware.wf := by decide
theorem test_asm_label_twice_refused : asmWellFormed [.label ['a'], .halt, .label ['a']] = false := by decide
theorem test_asm_label_missing_refused : asmWellFormed [.jmp (.imm (.label ['a']))] = false := by decide
theorem test_asm_number_refused : asmWellFormed [.data 9223372036854775808] = false := by decide
theorem test_memory_order_refused : ¬ Memory.wf ⟨5, [(3, 1), (2, 1)]⟩ := by decide
theorem test_memory_zero_refused : ¬ Memory.wf ⟨5, [(3, 0)]⟩ := by decide
theorem test_memory_bound_refused : ¬ Memory.wf ⟨3, [(3, 1)]⟩ := by decide

/-! ### Decoding: words written out from the encoding rules -/

-- R65: ADD #100, #-1, [4] is 1101,100,-1,4
theorem test_decode_add : decode [1101, 100, -1, 4] = .ok (.add (im 100) (im (-1)) (dst 4), []) := by decide
-- R65: MUL [4], #3, [4] is 1002,4,3,4
theorem test_decode_mul : decode [1002, 4, 3, 4] = .ok (.mul (pos 4) (im 3) (dst 4), []) := by decide
-- R84: 3 + 100*m1, the digit kept as spelled
theorem test_decode_inp : decode [103, 3, 99] = .ok (.inp ⟨.immediate, 3⟩, [99]) := by decide
-- R65: OUT #7 is 104,7
theorem test_decode_out : decode [104, 7] = .ok (.out (im 7), []) := by decide
-- R87: 5 + 100*m1 + 1000*m2
theorem test_decode_jnz : decode [1005, 28, 6] = .ok (.jnz (pos 28) (im 6), []) := by decide
-- R88: 6 + 100*m1 + 1000*m2
theorem test_decode_jz : decode [106, 1, 0] = .ok (.jz (im 1) (pos 0), []) := by decide
-- R89: 7 + 100*m1 + 1000*m2 + 10000*m3
theorem test_decode_lt : decode [11007, 9, 8, 5] = .ok (.lt (pos 9) (im 8) ⟨.immediate, 5⟩, []) := by decide
-- R90: 8 + 100*m1 + 1000*m2 + 10000*m3
theorem test_decode_eq : decode [10108, 9, 8, 5] = .ok (.eq (im 9) (pos 8) ⟨.immediate, 5⟩, []) := by decide
-- R91: the word is exactly 99
theorem test_decode_halt : decode [99] = .ok (.halt, []) := by decide
-- R73: an argument word that is not there
theorem test_decode_truncated : decode [1101, 1] = .error (.truncated 2) := by decide
theorem test_encode_mul : encode (.mul (pos 4) (im 3) (dst 4)) = [1002, 4, 3, 4] := by decide
-- the host's numbering: the second word starts at bit 64
theorem test_table_word : decodeTableWord 128 (104 + 7 * 2 ^ 64) = some (.out (im 7)) := by decide
theorem test_table_word_short : decodeTableWord 8 5 = some (.jnz (pos 0) (pos 0)) := by decide
theorem test_withFetchWord_runs :
    ipAfter (State.reset.withFetchWord 8 5) = some (5, .running) := by decide

/-! ### One step of each instruction -/

-- 95_test_vectors.md S1
theorem test_add : memAfter (prog [1, 0, 0, 0, 99]) 0 = some 2 := by decide
-- 2.2: [1101,9223372036854775807,1,5,99,0]
theorem test_add_overflow : recordAfter (prog [1101, 9223372036854775807, 1, 5, 99, 0]) =
    some (.overflow, 0, -9223372036854775808) := by decide
-- S2
theorem test_mul : memAfter (prog [2, 3, 0, 3, 99]) 3 = some 6 := by decide
-- 2.2: [1102,4294967296,2147483648,5,99,0] is 2^63
theorem test_mul_overflow : recordAfter (prog [1102, 4294967296, 2147483648, 5, 99, 0]) =
    some (.overflow, 0, -9223372036854775808) := by decide
-- 2.3: [3,3,99,0] with input 42
theorem test_in : memAfter (progIn [3, 3, 99, 0] [42]) 3 = some 42 := by decide
-- 2.3: with no input
theorem test_in_blocks : ipAfter (prog [3, 3, 99, 0]) = some (0, .blocked) := by decide
-- 2.3: [4,0,99] emits its own opcode word
theorem test_out : (out? (step (prog [4, 0, 99]))).map (·.outlog) = some [4] := by decide
-- 2.3: [4,5,99]
theorem test_out_fault : recordAfter (prog [4, 5, 99]) = some (.address, 0, 5) := by decide
-- 2.4: [1105,-1,4,99,99]: negative is true
theorem test_jnz : ipAfter (prog [1105, -1, 4, 99, 99]) = some (4, .running) := by decide
-- 2.4: [105,0,100,99]: not taken, the target is not read
theorem test_jnz_not_taken : ipAfter (prog [105, 0, 100, 99]) = some (3, .running) := by decide
-- 2.4: [1106,0,4,99,99]
theorem test_jz : ipAfter (prog [1106, 0, 4, 99, 99]) = some (4, .running) := by decide
-- 2.4: [1106,7,4,99,99]
theorem test_jz_not_taken : ipAfter (prog [1106, 7, 4, 99, 99]) = some (3, .running) := by decide
-- 2.5: signed
theorem test_lt : memAfter (prog [1107, -9223372036854775808, 9223372036854775807, 5, 99, -1]) 5 = some 1 := by decide
-- 2.5: [1107,8,8,5,99,-1]
theorem test_lt_equal : memAfter (prog [1107, 8, 8, 5, 99, -1]) 5 = some 0 := by decide
-- 2.5: [8,0,0,5,99,-1]
theorem test_eq : memAfter (prog [8, 0, 0, 5, 99, -1]) 5 = some 1 := by decide
-- 2.5: [1108,5,-5,5,99,-1]
theorem test_eq_differs : memAfter (prog [1108, 5, -5, 5, 99, -1]) 5 = some 0 := by decide
-- 2.6: [99]
theorem test_halt : ipAfter (prog [99]) = some (1, .finished) := by decide

/-! ### Notation -/

-- R63: the text 1002,4,3 with whitespace around the tokens
theorem test_text : parseProgram ['1', '0', '0', '2', ',', ' ', '4', '\n', ',', '-', '3'] = some [1002, 4, -3] := by
  decide
-- R94: a trailing comma, a sign '+', and inner whitespace are refused
theorem test_text_trailing_comma : parseProgram ['1', ','] = none := by decide
theorem test_text_plus : parseProgram ['+', '5'] = none := by decide
theorem test_text_inner_space : parseProgram ['1', ' ', '2'] = none := by decide
-- R65, R64: a listing with a label, a comment and a pseudo-instruction
theorem test_assemble_text : assembleText
    ['a', ':', ' ', 'O', 'U', 'T', ' ', '#', '7', ' ', ';', 'x', '\n', 'J', 'M', 'P', ' ', '#', 'a'] =
    some [104, 7, 1105, 1, 0] := by decide
-- R65: a write target is printed [n] whatever its digit
theorem test_disassemble : disassemble [10001, 1, 2, -3] =
    .ok ['A', 'D', 'D', ' ', '[', '1', ']', ',', ' ', '[', '2', ']', ',', ' ', '[', '-', '3', ']'] := by decide

/-! ### Witnesses: the hypotheses of the statements can be met -/

theorem witness_LoadSetsEveryResetValue :
    ([] : List Word).length ≤ Config.thisHardware.maxMemLen ∧ [1, 2].length ≤ (⟨2, none, none, .fault⟩ : Config).maxMemLen := by
  decide

theorem witness_LoadRefusesTooLongProgram :
    (⟨1, none, none, .fault⟩ : Config).maxMemLen < ([1, 2] : List Word).length ∧
      ([1] : List Word).length ≤ (⟨1, none, none, .fault⟩ : Config).maxMemLen := by decide

theorem witness_LoadedEngineMeetsInvariant :
    (⟨1, none, none, .fault⟩ : Config).wf ∧ (loadEngine ⟨1, none, none, .fault⟩ [99]).isSome := by decide

/-- An engine that meets the invariant and can step: `ADD #2, #3, [4]`, its target the word after it. -/
def sample : State := prog [1101, 2, 3, 4, 0, 0]

theorem sample_inv : sample.Inv where
  config := by decide
  memory := by decide
  memoryFits := by decide
  ipFits := by decide
  cursor := by decide
  inputFits := by intro n h; cases h
  outputFits := by intro n h; cases h
  blockedStarved := by decide
  noRecord := by decide
  record := by decide

theorem witness_StepKeepsInvariant : sample.Inv ∧ ∃ t, step sample = .next t := ⟨sample_inv, _, rfl⟩

theorem witness_HostOperationKeepsInvariant : sample.Inv ∧ ∃ r t, hostOp (.replace 5 7) sample = .next (r, t) :=
  ⟨sample_inv, _, _, rfl⟩

theorem witness_EncodeOfDecode : decode [104, 7, 99] = .ok (.out (im 7), [99]) := by decide

theorem witness_DecodeAcceptsExactlyLegalWords :
    (∃ h, decodeHead 11108 = .ok h) ∧ (0 ≤ (11108 : Word).toInt ∧ arityOf ((11108 : Word).toInt.toNat % 100) = some 3 ∧
      (11108 : Word).toInt.toNat / 100 < 10 ^ 3 ∧ ∀ k, k < 3 → digit k ((11108 : Word).toInt.toNat / 100) ≤ 1) :=
  ⟨⟨_, rfl⟩, by decide⟩

theorem witness_UnexpectedOpcodeFaults :
    (prog [-1]).status = .running ∧ (prog [-1]).mem.read (prog [-1]).ip.toNat = some (-1) ∧ (-1 : Word).toInt < 0 ∧
    (prog [98]).status = .running ∧ (prog [98]).mem.read (prog [98]).ip.toNat = some 98 ∧
      0 ≤ (98 : Word).toInt ∧ (98 : Word).toInt % 100 ∉ ([1, 2, 3, 4, 5, 6, 7, 8, 99] : List Int) := by decide

theorem witness_DigitBeyondArityFaults :
    (prog [1099]).status = .running ∧ (prog [1099]).mem.read (prog [1099]).ip.toNat = some 1099 ∧
      0 ≤ (1099 : Word).toInt ∧ arityOf ((1099 : Word).toInt.toNat % 100) = some 0 ∧
      10 ^ 0 ≤ (1099 : Word).toInt.toNat / 100 := by decide

theorem witness_BadModeDigitFaults :
    (prog [20001]).status = .running ∧ (prog [20001]).mem.read (prog [20001]).ip.toNat = some 20001 ∧
      0 ≤ (20001 : Word).toInt ∧ arityOf ((20001 : Word).toInt.toNat % 100) = some 3 ∧ 1 ≤ 3 ∧
      2 ≤ digit (3 + 1) (20001 : Word).toInt.toNat ∧ 2 ≤ digit (1 + 1) (201 : Word).toInt.toNat := by decide

theorem witness_StepRunsDecodedInstruction :
    sample.status = .running ∧ decode [1101, 2, 3, 4] = .ok (.add (im 2) (im 3) (dst 4), []) ∧
      HoldsAt sample.mem sample.ip.toNat [1101, 2, 3, 4] := by
  refine ⟨by decide, by decide, fun k h => ?_⟩
  simp only [List.length_cons, List.length_nil] at h
  rcases k with _ | _ | _ | _ | k <;> first | rfl | omega

theorem witness_StoppedEngineStepChangesNothing :
    ((prog [99]).withStatus .blocked).status ≠ .running ∧ ((prog [99]).withStatus .finished).status ≠ .running ∧
      ((prog [99]).withStatus .faulted).status ≠ .running := by decide

theorem witness_FetchBeyondMemoryFaults :
    (prog []).status = .running ∧ (prog []).mem.len ≤ (prog []).ip.toNat ∧
      ((prog [99]).withIp 1).mem.len ≤ ((prog [99]).withIp 1).ip.toNat := by decide

theorem witness_MissingArgumentWordFaults :
    (prog [1101, 1]).status = .running ∧ (prog [1101, 1]).mem.read (prog [1101, 1]).ip.toNat = some 1101 ∧
      decodeHead 1101 = .ok (.add .immediate .immediate .position) ∧
      2 ≤ (Head.add .immediate .immediate .position).arity ∧
      (prog [1101, 1]).ip.toNat + 2 = (prog [1101, 1]).mem.len := by decide

theorem witness_FaultsArePrecise :
    (prog [31]).status = .running ∧ ∃ t, step (prog [31]) = .next t ∧ t.status = .faulted := ⟨rfl, _, rfl, rfl⟩

theorem witness_StepAdvancesIp :
    sample.Inv ∧ sample.status = .running ∧ fetchInstr sample = .ok (.add (im 2) (im 3) (dst 4)) ∧
      ∃ t, step sample = .next t ∧ t.status = .running := ⟨sample_inv, rfl, rfl, _, rfl, rfl⟩

/-- The clauses of `StepAdvancesIp`: a fault, a blocked read, a taken and an untaken jump of each kind. -/
theorem witness_StepAdvancesIp_clauses :
    ipAfter (prog [31]) = some (0, .faulted) ∧ ipAfter (prog [3, 0]) = some (0, .blocked) ∧
      ipAfter (prog [1105, 1, 9]) = some (9, .running) ∧ ipAfter (prog [1106, 0, 9]) = some (9, .running) ∧
      ipAfter (prog [1105, 0, 9]) = some (3, .running) ∧ ipAfter (prog [1106, 1, 9]) = some (3, .running) := by decide

theorem witness_StepResponses :
    fetchInstr (prog [3, 0]) = .ok (.inp (dst 0)) ∧ inputAvailable (prog [3, 0]) = false ∧
      ipAfter (prog [3, 0]) = some (0, .blocked) ∧
      fetchInstr (progIn [3, 0] [7]) = .ok (.inp (dst 0)) ∧ inputAvailable (progIn [3, 0] [7]) = true ∧
      ipAfter (progIn [3, 0] [7]) = some (2, .running) ∧
      fetchInstr (prog [99]) = .ok .halt ∧ ipAfter (prog [99]) = some (1, .finished) := by decide

theorem witness_StatusChangesOnlyAsListed :
    (∃ t, step (prog [99]) = .next t ∧ t.status ≠ (prog [99]).status ∧ t.status = .finished) ∧
      (∃ t, step (prog [103, 0]) = .next t ∧ t.status ≠ (prog [103, 0]).status ∧ t.status = .blocked) :=
  ⟨⟨_, rfl, by decide, rfl⟩, ⟨_, rfl, by decide, rfl⟩⟩

theorem witness_ResolveFollowsTheModes :
    (0 ≤ (5 : Word).toInt ∧ (5 : Word).toInt < sample.mem.len) ∧ ¬ (0 ≤ (6 : Word).toInt ∧ (6 : Word).toInt < sample.mem.len) ∧
      ¬ (0 ≤ (-1 : Word).toInt ∧ (-1 : Word).toInt < sample.mem.len) := by decide

theorem witness_BadFirstOperandFaults :
    (pos 6).mode = .position ∧ sample.mem.read (pos 6).raw.toInt = none ∧ sample.mem.read (pos (-1)).raw.toInt = none := by
  decide

theorem witness_BadSecondOperandFaults :
    resolve (im 1) sample = .ok 1 ∧ (1 : Word).toInt ≠ 0 ∧ resolve (im 0) sample = .ok 0 ∧ (0 : Word).toInt = 0 ∧
      (pos 6).mode = .position ∧ sample.mem.read (pos 6).raw.toInt = none := by decide

theorem witness_BadWriteTargetFaults :
    sample.mem.inRange (dst 6).raw.toInt = false ∧ sample.mem.inRange (dst (-1)).raw.toInt = false ∧
      resolve (im 1) sample = .ok 1 ∧ resolve (pos 5) sample = .ok 0 := by decide

theorem witness_AddWritesSum :
    sample.mem.wf ∧ resolve (im 9223372036854775806) sample = .ok 9223372036854775806 ∧ resolve (im 1) sample = .ok 1 ∧
      sample.mem.inRange (targetAddress (dst 5)) = true ∧
      (9223372036854775807 : Word).toInt = (9223372036854775806 : Word).toInt + (1 : Word).toInt := by decide

theorem witness_MulWritesProduct :
    sample.mem.wf ∧ resolve (im (-9223372036854775808)) sample = .ok (-9223372036854775808) ∧
      resolve (im 1) sample = .ok 1 ∧ sample.mem.inRange (targetAddress (dst 5)) = true ∧
      (-9223372036854775808 : Word).toInt = (-9223372036854775808 : Word).toInt * (1 : Word).toInt := by decide

theorem witness_ArithmeticFollowsTheOverflowPolicy :
    sample.mem.wf ∧ resolve (im 9223372036854775807) sample = .ok 9223372036854775807 ∧ resolve (im 1) sample = .ok 1 ∧
      sample.mem.inRange (targetAddress (dst 5)) = true ∧
      ¬ InInt64 ((9223372036854775807 : Word).toInt + (1 : Word).toInt) ∧ sample.config.overflow = .fault ∧
      (progWrap [99]).config.overflow = .wrap ∧ InInt64 ((9223372036854775807 : Word).toInt * (1 : Word).toInt) := by decide

theorem witness_LtWritesSignedComparison :
    sample.mem.wf ∧ resolve (im (-1)) sample = .ok (-1) ∧ resolve (im 0) sample = .ok 0 ∧
      sample.mem.inRange (targetAddress (dst 0)) = true := by decide

theorem witness_EqWritesEquality :
    sample.mem.wf ∧ resolve (pos 0) sample = .ok 1101 ∧ resolve (im 1101) sample = .ok 1101 ∧
      sample.mem.inRange (targetAddress (dst 5)) = true := by decide

theorem witness_InputStoresNextValue :
    (progIn [3, 1] [7]).mem.wf ∧ (progIn [3, 1] [7]).mem.inRange (targetAddress (dst 1)) = true ∧
      (progIn [3, 1] [7]).inq[(progIn [3, 1] [7]).inCur]? = some 7 := by decide

theorem witness_StarvedInputBlocks :
    (prog [3, 1]).mem.inRange (targetAddress (dst 1)) = true ∧ (prog [3, 1]).inq.length ≤ (prog [3, 1]).inCur := by decide

theorem witness_OutputAppendsOrFaultsWhenFull :
    resolve (im 7) sample = .ok 7 ∧ sample.config.outCap ≠ some sample.outlog.length ∧
      resolve (im 7) { sample with config := ⟨9, none, some 0, .fault⟩ } = .ok 7 ∧
      ({ sample with config := ⟨9, none, some 0, .fault⟩ } : State).config.outCap = some sample.outlog.length := by decide

theorem witness_InputsAreConsumedInOrder :
    (progIn [3, 1] [7]).mem.wf ∧ ∃ t, step (progIn [3, 1] [7]) = .next t ∧ t.inCur = 1 := ⟨by decide, _, rfl, rfl⟩

theorem witness_OutputLogOnlyGrows :
    (∃ t, Host.Core.run Sys2Proof.core 1 (prog [104, 7, 99]) = .next t) ∧
      ∃ r t, hostOp .step (prog [104, 7, 99]) = .next (r, t) := ⟨⟨_, rfl⟩, _, _, rfl⟩

theorem witness_BlockedInputResumesWithPushedValue :
    (prog [3, 1]).mem.wf ∧ (prog [3, 1]).status = .running ∧ fetchInstr (prog [3, 1]) = .ok (.inp (dst 1)) ∧
      (prog [3, 1]).mem.inRange (targetAddress (dst 1)) = true ∧ (prog [3, 1]).inCur = (prog [3, 1]).inq.length ∧
      (prog [3, 1]).config.inCap ≠ some (prog [3, 1]).inq.length := by decide

theorem witness_JnzJumpsWhenNotZero :
    resolve (im (-1)) sample = .ok (-1) ∧ (-1 : Word).toInt ≠ 0 ∧ resolve (im 0) sample = .ok 0 ∧ 0 ≤ (0 : Word).toInt ∧
      (0 : Word).toInt = 0 := by decide

theorem witness_JzJumpsWhenZero :
    resolve (pos 5) sample = .ok 0 ∧ (0 : Word).toInt = 0 ∧ resolve (im 9) sample = .ok 9 ∧ 0 ≤ (9 : Word).toInt ∧
      (9 : Word).toInt ≠ 0 := by decide

theorem witness_NegativeJumpTargetFaults :
    resolve (im 1) sample = .ok 1 ∧ (1 : Word).toInt ≠ 0 ∧ resolve (im 0) sample = .ok 0 ∧ (0 : Word).toInt = 0 ∧
      resolve (im (-1)) sample = .ok (-1) ∧ (-1 : Word).toInt < 0 := by decide

theorem witness_JumpBeyondMemoryFaultsAtNextFetch :
    (prog [1105, 1, 3]).status = .running ∧ fetchInstr (prog [1105, 1, 3]) = .ok (.jnz (im 1) (im 3)) ∧
      (1 : Word).toInt ≠ 0 ∧ fetchInstr (prog [1106, 0, 3]) = .ok (.jz (im 0) (im 3)) ∧ (0 : Word).toInt = 0 ∧
      resolve (im 1) (prog [1105, 1, 3]) = .ok 1 ∧ resolve (im 3) (prog [1105, 1, 3]) = .ok 3 ∧
      ((prog [1105, 1, 3]).mem.len : Int) ≤ (3 : Word).toInt := by decide

theorem witness_StoringInstructionsFrame :
    writeAddress (.inp (dst 1)) = some 1 ∧ (∃ t, exec (.inp (dst 1)) (progIn [3, 1] [7]) = .next t ∧ t.inCur = 1) ∧
      writeAddress (.eq (im 1) (im 1) (dst 1)) = some 1 ∧
      ∃ t, exec (.eq (im 1) (im 1) (dst 1)) sample = .next t ∧ t.status = .running :=
  ⟨rfl, ⟨_, rfl, rfl⟩, rfl, _, rfl, rfl⟩

theorem witness_NonStoringInstructionsFrame :
    writeAddress (.out (im 1)) = none ∧ (∃ t, exec (.out (im 1)) sample = .next t ∧ t.outlog = [1]) ∧
      writeAddress .halt = none ∧ ∃ t, exec .halt sample = .next t ∧ t.status = .finished :=
  ⟨rfl, ⟨_, rfl, rfl⟩, rfl, _, rfl, rfl⟩

theorem witness_StepWritesOnlyItsTarget :
    (∃ t, step sample = .next t) ∧ fetchInstr sample = .ok (.add (im 2) (im 3) (dst 4)) ∧
      writeAddress (.add (im 2) (im 3) (dst 4)) ≠ some 5 := ⟨⟨_, rfl⟩, rfl, by decide⟩

theorem witness_MemoriesThatReadAlikeAreEqual :
    Memory.wf ⟨2, [(1, 7)]⟩ ∧ (Memory.write ⟨2, []⟩ 1 7) = some ⟨2, [(1, 7)]⟩ := by decide

theorem witness_WrittenWordIsFetchedNext :
    sample.Inv ∧ sample.status = .running ∧ fetchInstr sample = .ok (.add (im 2) (im 3) (dst 4)) ∧
      resolve (im 2) sample = .ok 2 ∧ resolve (im 3) sample = .ok 3 ∧ (5 : Word).toInt = (2 : Word).toInt + (3 : Word).toInt ∧
      targetAddress (dst 4) = sample.ip.toNat + 4 ∧ sample.ip.toNat + 4 < sample.mem.len :=
  ⟨sample_inv, by decide⟩

/-- The two clauses of `WrittenWordIsFetchedNext`: a sum that is the halt word, and one that is no legal word. -/
theorem witness_WrittenWordIsFetchedNext_clauses :
    decodeHead 99 = .ok .halt ∧ Head.halt.arity = 0 ∧ decodeHead 0 = .error (.unexpectedOpcode 0) := by decide

theorem witness_HostReadAnswersOrFaults :
    (0 ≤ (5 : Word).toInt ∧ (5 : Word).toInt < sample.mem.len) ∧ ¬ (0 ≤ (6 : Word).toInt ∧ (6 : Word).toInt < sample.mem.len) ∧
      sample.status ≠ .faulted ∧ (sample.withStatus .faulted).status = .faulted := by decide

theorem witness_HostReplaceWritesOneWord :
    sample.mem.wf ∧ sample.mem.inRange (5 : Word).toInt = true ∧ sample.mem.inRange (6 : Word).toInt = false := by decide

theorem witness_AddInputAppendsAndUnblocks :
    sample.config.inCap ≠ some sample.inq.length ∧
      ({ sample with config := ⟨9, some 0, none, .fault⟩ } : State).config.inCap = some sample.inq.length := by decide

theorem witness_FaultedEngineKeepsItsRecord :
    (sample.withStatus .faulted).status = .faulted ∧ (∃ r t, hostOp .step (sample.withStatus .faulted) = .next (r, t)) ∧
      (sample.withStatus .faulted).mem.inRange (6 : Word).toInt = false := ⟨rfl, ⟨_, _, rfl⟩, by decide⟩

theorem witness_RunEndsStoppedWhateverTheFuel :
    (∃ t, runFuel 2 (prog [99]) = .next (some .finished, t)) ∧ (sample.withStatus .finished).status ≠ .running :=
  ⟨⟨_, rfl⟩, by decide⟩

theorem witness_SafeRunIsSafeThroughout : SafeRun (0 + 1) (prog [99]) := ⟨_, rfl, fun h => by cases h⟩

theorem witness_EnginesShareNothing :
    (∃ r es, systemOp (.on 0 .step) [sample, prog [99]] = .next (r, es)) ∧ (0 : Nat) ≠ 1 ∧ 1 < [sample, prog [99]].length :=
  ⟨⟨_, _, rfl⟩, by decide⟩

theorem witness_ProgramTextRoundTrip : ([99] : List Word) ≠ [] := by decide

end Sys2Proof.Machine.Tests
end

section
/-! PROOFS. Several engines (R13, R93, R115; log 16): what each operation of the host does to its list of engines, and
that no operation reaches an engine it does not name. -/

namespace Sys2Proof.Machine

/-! ### What an operation does to the list of engines -/

/-- LOAD refuses, or puts the engine it constructs behind all others (R93). -/
theorem systemLoad_cases (c : Config) (p : List Word) (es : List State) :
    (loadEngine c p = none ∧ systemLoad c p es = (.refused, es)) ∨
    (∃ s, loadEngine c p = some s ∧ systemLoad c p es = (.ok, es ++ [s])) := by
  unfold systemLoad
  cases hl : loadEngine c p with
  | none => exact .inl ⟨rfl, rfl⟩
  | some s => exact .inr ⟨s, rfl, rfl⟩

@[simp] theorem systemOp_load (c : Config) (p : List Word) (es : List State) :
    systemOp (.load c p) es = .next (systemLoad c p es) := rfl

/-- LOAD_TEXT refuses text that is no program, and is LOAD of the program it reads otherwise (R94). -/
theorem systemOp_loadText_cases (c : Config) (text : List Char) (es : List State) :
    (parseProgram text = none ∧ systemOp (.loadText c text) es = .next (.refused, es)) ∨
    (∃ p, parseProgram text = some p ∧ systemOp (.loadText c text) es = systemOp (.load c p) es) := by
  simp only [systemOp]
  cases hp : parseProgram text with
  | none => exact .inl ⟨rfl, rfl⟩
  | some p => exact .inr ⟨p, rfl, rfl⟩

/-- An operation on engine `k` is refused if there is none, and otherwise replaces it by what `hostOp` makes of it. -/
theorem systemOp_on_cases {k : Nat} {o : HostOp} {es es' : List State} {r : HostResponse}
    (h : systemOp (.on k o) es = .next (r, es')) :
    (es[k]? = none ∧ r = .refused ∧ es' = es) ∨
    (∃ s t, es[k]? = some s ∧ hostOp o s = .next (r, t) ∧ es' = es.set k t) := by
  simp only [systemOp] at h
  cases hk : es[k]? with
  | none =>
    rw [hk] at h
    cases h
    exact .inl ⟨rfl, rfl, rfl⟩
  | some s =>
    simp only [hk] at h
    cases ho : hostOp o s with
    | next a =>
      rw [ho] at h
      cases h
      exact .inr ⟨s, a.2, rfl, ho, rfl⟩
    | fault f => cases f
    | refused x => simp [ho] at h

/-! ### What an operation leaves alone -/

theorem systemLoad_getElem?_of_lt (c : Config) (p : List Word) (es : List State) {j : Nat} (hj : j < es.length) :
    (systemLoad c p es).2[j]? = es[j]? := by
  obtain ⟨-, h⟩ | ⟨s, -, h⟩ := systemLoad_cases c p es
  · rw [h]
  · rw [h]
    exact List.getElem?_append_left hj

theorem systemOp_load_getElem?_of_lt {c : Config} {p : List Word} {es es' : List State} {r : HostResponse} {j : Nat}
    (h : systemOp (.load c p) es = .next (r, es')) (hj : j < es.length) : es'[j]? = es[j]? := by
  have hl : systemLoad c p es = (r, es') := by simpa using h
  simpa [hl] using systemLoad_getElem?_of_lt c p es hj

theorem systemOp_loadText_getElem?_of_lt {c : Config} {text : List Char} {es es' : List State} {r : HostResponse}
    {j : Nat} (h : systemOp (.loadText c text) es = .next (r, es')) (hj : j < es.length) : es'[j]? = es[j]? := by
  obtain ⟨-, he⟩ | ⟨p, -, he⟩ := systemOp_loadText_cases c text es
  · cases he.symm.trans h
    rfl
  · exact systemOp_load_getElem?_of_lt (he.symm.trans h) hj

theorem systemOp_on_getElem?_of_ne {k j : Nat} {o : HostOp} {es es' : List State} {r : HostResponse}
    (h : systemOp (.on k o) es = .next (r, es')) (hkj : k ≠ j) : es'[j]? = es[j]? := by
  obtain ⟨-, -, rfl⟩ | ⟨s, t, -, -, rfl⟩ := systemOp_on_cases h
  · rfl
  · exact List.getElem?_set_ne hkj

/-- Settles O57, one operation at a time: a construction only appends to the list of engines, and an operation on
engine `k` writes place `k` alone. -/
theorem enginesShareNothing : Obligations.EnginesShareNothing := by
  intro op es es' r j h hne hj
  cases op with
  | load c p => exact systemOp_load_getElem?_of_lt h hj
  | loadText c text => exact systemOp_loadText_getElem?_of_lt h hj
  | on k o => exact systemOp_on_getElem?_of_ne h (hne k o rfl)

end Sys2Proof.Machine
end

section
/-! PROOFS. The layer the statements about the state rest on: what a step is where its fetch and its operands are
known, what an effect leaves of each register, and the instruction word a fetch has read. -/

namespace Sys2Proof.Machine

/-! ### A step whose fetch is known -/

theorem step_of_fetch_ok {s : State} {i : Instr} (hr : s.status = .running) (hi : fetchInstr s = .ok i) :
    step s = exec i s := by
  simp [step, hr, hi]

theorem step_of_fetch_error {s : State} {e : Trap} (hr : s.status = .running) (he : fetchInstr s = .error e) :
    step s = .next (takeFault e s) := by
  simp [step, hr, he]

/-- An `ip` at or beyond `MEM_LEN` is the offending address of the fetch (R71). -/
theorem fetchInstr_of_len_le_ip {s : State} (h : s.mem.len ≤ s.ip.toNat) :
    fetchInstr s = .error ⟨.address, s.ip⟩ := by
  have hout : s.mem.inRange s.ip.toNat = false := by
    rw [Bool.eq_false_iff, ne_eq, Memory.inRange_iff]
    omega
  have hread : memRead s.ip.toNat s = .error ⟨.address, s.ip⟩ :=
    memRead_error.2 ⟨hout, by simp [addressTrap]⟩
  simp [fetchInstr, hread]

/-! ### Execute phases whose operands are known -/

theorem jumpIf_of_taken {k : Int → Bool} {a b : Operand} {s : State} {x y : Word} (hx : resolve a s = .ok x)
    (hk : k x.toInt = true) (hy : resolve b s = .ok y) (h0 : 0 ≤ y.toInt) :
    jumpIf k a b s = .ok (s.withIp y) := by
  simp [jumpIf, bind, Except.bind, pure, Except.pure, hx, hk, hy, Int.not_lt.2 h0]

theorem writeOutput_of_resolved {a : Operand} {s : State} {v : Word} (hv : resolve a s = .ok v) :
    writeOutput a s = (emit v s).bind (fun t => .ok (t.withIp (s.ip + 2))) := by
  simp only [writeOutput, bind, hv, Except.bind]
  rfl

/-! ### What an effect leaves of `state`, `ip` and the log -/

/-- The status changes only in an IN that finds no unread input, and in HALT. -/
theorem Effect.status_cases {i : Instr} {s t : State} (h : Effect i s t) :
    t.status = s.status ∨
    (∃ c, i = .inp c ∧ inputAvailable s = false ∧ t = s.withStatus .blocked) ∨
    (i = .halt ∧ t.status = .finished) := by
  cases h with
  | block c hi hn _ => exact .inr (.inl ⟨c, hi, hn, rfl⟩)
  | halted hi => exact .inr (.inr ⟨hi, rfl⟩)
  | result | input | output | taken | notTaken => exact .inl rfl

/-- An instruction that is no jump and does not block moves `ip` past its words (R16). -/
theorem Effect.ip_cases {i : Instr} {s t : State} (h : Effect i s t) :
    t = s.withStatus .blocked ∨ (∃ a b, i = .jnz a b ∨ i = .jz a b) ∨
      t.ip = s.ip + BitVec.ofNat 64 i.length := by
  cases h with
  | block => exact .inl rfl
  | taken a b _ hi | notTaken a b hi => exact .inr (.inl ⟨a, b, hi⟩)
  | result _ _ _ _ _ hl => exact .inr (.inr (by rw [hl]; rfl))
  | input _ _ _ hi | output _ _ hi | halted hi => exact .inr (.inr (by subst hi; rfl))

theorem Effect.outlog_prefix {i : Instr} {s t : State} (h : Effect i s t) : s.outlog <+: t.outlog := by
  cases h with
  | output a v => exact List.prefix_append s.outlog [v]
  | result | input | block | taken | notTaken | halted => exact List.prefix_rfl

/-! ### The instruction word a fetch has read -/

theorem modeOf_eq_some {d : Nat} {m : Mode} (h : modeOf d = some m) : d = m.digit := by
  unfold modeOf at h
  split at h <;> cases h <;> rfl

theorem noModes_ok {w : Word} {md : Nat} {g h : Head} (hd : noModes w md g = .ok h) : md = 0 ∧ h = g := by
  unfold noModes at hd
  split at hd <;> cases hd
  exact ⟨by omega, rfl⟩

theorem oneMode_ok {w : Word} {md : Nat} {g : Mode → Head} {h : Head} (hd : oneMode w md g = .ok h) :
    ∃ m1, md = m1.digit ∧ h = g m1 := by
  unfold oneMode at hd
  split at hd
  · cases hd
  · split at hd <;> cases hd
    rename_i m1 h1
    have h1 := modeOf_eq_some h1
    simp only [digit] at h1
    exact ⟨m1, by omega, rfl⟩

theorem twoModes_ok {w : Word} {md : Nat} {g : Mode → Mode → Head} {h : Head} (hd : twoModes w md g = .ok h) :
    ∃ m1 m2, md = m1.digit + 10 * m2.digit ∧ h = g m1 m2 := by
  unfold twoModes at hd
  split at hd
  · cases hd
  · split at hd <;> cases hd
    rename_i m1 m2 h1 h2
    have h1 := modeOf_eq_some h1
    have h2 := modeOf_eq_some h2
    simp only [digit] at h1 h2
    exact ⟨m1, m2, by omega, rfl⟩

theorem threeModes_ok {w : Word} {md : Nat} {g : Mode → Mode → Mode → Head} {h : Head}
    (hd : threeModes w md g = .ok h) :
    ∃ m1 m2 m3, md = m1.digit + 10 * m2.digit + 100 * m3.digit ∧ h = g m1 m2 m3 := by
  unfold threeModes at hd
  split at hd
  · cases hd
  · split at hd <;> cases hd
    rename_i m1 m2 m3 h1 h2 h3
    have h1 := modeOf_eq_some h1
    have h2 := modeOf_eq_some h2
    have h3 := modeOf_eq_some h3
    simp only [digit] at h1 h2 h3
    exact ⟨m1, m2, m3, by omega, rfl⟩

/-- The number that spells a decoded head (R48, R50, R65). -/
def headNumber : Head → Nat
  | .add m1 m2 m3 => 1 + 100 * m1.digit + 1000 * m2.digit + 10000 * m3.digit
  | .mul m1 m2 m3 => 2 + 100 * m1.digit + 1000 * m2.digit + 10000 * m3.digit
  | .inp m1 => 3 + 100 * m1.digit
  | .out m1 => 4 + 100 * m1.digit
  | .jnz m1 m2 => 5 + 100 * m1.digit + 1000 * m2.digit
  | .jz m1 m2 => 6 + 100 * m1.digit + 1000 * m2.digit
  | .lt m1 m2 m3 => 7 + 100 * m1.digit + 1000 * m2.digit + 10000 * m3.digit
  | .eq m1 m2 m3 => 8 + 100 * m1.digit + 1000 * m2.digit + 10000 * m3.digit
  | .halt => 99

/-- Only one number decodes to a head. -/
theorem decodeNat_ok {w : Word} {n : Nat} {h : Head} (hd : decodeNat w n = .ok h) : n = headNumber h := by
  unfold decodeNat at hd
  split at hd
  case h_1 | h_2 | h_7 | h_8 =>
    obtain ⟨m1, m2, m3, hmd, rfl⟩ := threeModes_ok hd
    simp only [headNumber]
    omega
  case h_3 | h_4 =>
    obtain ⟨m1, hmd, rfl⟩ := oneMode_ok hd
    simp only [headNumber]
    omega
  case h_5 | h_6 =>
    obtain ⟨m1, m2, hmd, rfl⟩ := twoModes_ok hd
    simp only [headNumber]
    omega
  case h_9 =>
    obtain ⟨hmd, rfl⟩ := noModes_ok hd
    simp only [headNumber]
    omega
  case h_10 => cases hd

theorem decodeHead_ok {w : Word} {h : Head} (hd : decodeHead w = .ok h) : w = BitVec.ofNat 64 (headNumber h) := by
  unfold decodeHead at hd
  split at hd
  · cases hd
  · rename_i h0
    rw [← decodeNat_ok hd, ← BitVec.ofInt_natCast, Int.toNat_of_nonneg (by omega), BitVec.ofInt_toInt]

/-- The instruction completed from a head is spelled by the number of the head. -/
theorem Head.complete_head {ε : Type} {arg : Nat → Except ε Word} {h : Head} {i : Instr}
    (hi : h.complete arg = .ok i) : i.head = headNumber h := by
  cases h <;> simp only [Head.complete, bind, Except.bind] at hi
  case halt => cases hi; rfl
  case inp | out => split at hi <;> cases hi; rfl
  case jnz | jz =>
    iterate 2 (split at hi; · cases hi)
    cases hi; rfl
  case add | mul | lt | eq =>
    iterate 3 (split at hi; · cases hi)
    cases hi; rfl

/-- The word at `ip` is the instruction word of the fetched instruction. -/
theorem fetchInstr_head {s : State} {i : Instr} (h : fetchInstr s = .ok i) :
    s.mem.read s.ip.toNat = some (BitVec.ofNat 64 i.head) := by
  obtain ⟨w, hd, hw, hdec, hc⟩ := fetchInstr_ok h
  rw [hw, decodeHead_ok hdec, Head.complete_head hc]

end Sys2Proof.Machine
end

section
/-! PROOFS. The invariant (R17, R20, R22, R26): one rule per update of the state, then every step. -/

namespace Sys2Proof.Machine

/-! ### One rule per update -/

theorem State.Inv.withMem {s : State} {m : Memory} (h : s.Inv) (hwf : m.wf) (hlen : m.len = s.mem.len) :
    (s.withMem m).Inv :=
  { h with memory := hwf, memoryFits := hlen.trans_le h.memoryFits }

theorem State.Inv.withMem_of_write {s : State} {a : Int} {v : Word} {m : Memory} (h : s.Inv)
    (hm : s.mem.write a v = some m) : (s.withMem m).Inv :=
  h.withMem (Memory.write_wf h.memory hm) (Memory.write_len hm)

/-- A FAULTED engine is excluded: its `ip` is the one in the fault record. -/
theorem State.Inv.withIp {s : State} {p : Pointer} (h : s.Inv) (hs : s.status ≠ .faulted)
    (hp : p.toNat ≤ 9223372036854775807) : (s.withIp p).Inv :=
  { h with ipFits := hp, record := fun hf => absurd hf hs }

/-- A BLOCKED engine is excluded: its cursor is at the end of the queue. -/
theorem State.Inv.withCursor {s : State} {n : Nat} (h : s.Inv) (hs : s.status ≠ .blocked)
    (hn : n ≤ s.inq.length) : (s.withCursor n).Inv :=
  { h with cursor := hn, blockedStarved := fun hb => absurd hb hs }

theorem State.Inv.withOutput {s : State} {l : List Word} (h : s.Inv)
    (hl : ∀ n, s.config.outCap = some n → l.length ≤ n) : (s.withOutput l).Inv :=
  { h with outputFits := hl }

theorem State.Inv.withStatus {s : State} {st : Status} (h : s.Inv) (hs : s.status ≠ .faulted) (hst : st ≠ .faulted)
    (hb : st = .blocked → s.inCur = s.inq.length) : (s.withStatus st).Inv :=
  { h with
    blockedStarved := hb
    noRecord := fun _ => h.noRecord hs
    record := fun hf => absurd hf hst }

theorem State.Inv.takeFault {s : State} {e : Trap} (h : s.Inv) (he : e.code ≠ .noFault) :
    (takeFault e s).Inv :=
  { h with
    blockedStarved := fun hb => by cases hb
    noRecord := fun hf => absurd rfl hf
    record := fun _ => ⟨he, rfl⟩ }

/-- Below the capacity there is room for one value more in the log. -/
theorem State.Inv.withOutput_append {s : State} {v : Word} (h : s.Inv)
    (hc : s.config.outCap ≠ some s.outlog.length) : (s.withOutput (s.outlog ++ [v])).Inv :=
  h.withOutput fun n hn => by
    have hle := h.outputFits n hn
    have hne : s.outlog.length ≠ n := fun heq => hc (heq ▸ hn)
    simp only [List.length_append, List.length_singleton]
    omega

/-! ### Sequential execution -/

/-- A fetched instruction ends at an address that is still an `Int64`. -/
theorem State.Inv.ip_add_length_le {s : State} {i : Instr} (h : s.Inv) (hi : fetchInstr s = .ok i) :
    s.ip.toNat + i.length ≤ 9223372036854775807 :=
  calc s.ip.toNat + i.length ≤ s.mem.len := fetchInstr_fits hi
    _ ≤ s.config.maxMemLen := h.memoryFits
    _ ≤ 9223372036854775807 := h.config.2

/-- Moving past a fetched instruction does not wrap (R17). -/
theorem State.Inv.toNat_ip_add_length {s : State} {i : Instr} (h : s.Inv) (hi : fetchInstr s = .ok i) :
    (s.ip + BitVec.ofNat 64 i.length).toNat = s.ip.toNat + i.length := by
  have hle := h.ip_add_length_le hi
  rw [BitVec.toNat_add, BitVec.toNat_ofNat]
  omega

theorem State.Inv.toNat_ip_add_le {s : State} {i : Instr} {k : Nat} (h : s.Inv) (hi : fetchInstr s = .ok i)
    (hk : i.length = k) : (s.ip + BitVec.ofNat 64 k).toNat ≤ 9223372036854775807 := by
  subst hk
  rw [h.toNat_ip_add_length hi]
  exact h.ip_add_length_le hi

/-! ### Every step -/

theorem jump_length {i : Instr} {a b : Operand} (hi : i = .jnz a b ∨ i = .jz a b) : i.length = 3 := by
  rcases hi with rfl | rfl <;> rfl

/-- The effect of the instruction fetched by a RUNNING engine keeps the invariant. -/
theorem Effect.keeps_inv {i : Instr} {s t : State} (h : s.Inv) (hr : s.status = .running)
    (hi : fetchInstr s = .ok i) (he : Effect i s t) : t.Inv := by
  have hnf : s.status ≠ .faulted := by simp [hr]
  have hnb : s.status ≠ .blocked := by simp [hr]
  cases he with
  | result a r m _ hm hl => exact (h.withMem_of_write hm).withIp hnf (h.toNat_ip_add_le hi hl)
  | input c v m hc hv hm =>
    have hlt : s.inCur < s.inq.length := (List.getElem?_eq_some_iff.1 hv).1
    have hcur : (s.withCursor (s.inCur + 1)).Inv := h.withCursor hnb hlt
    exact (hcur.withMem_of_write hm).withIp hnf (h.toNat_ip_add_le hi (by rw [hc]; rfl))
  | block c _ hn _ =>
    have hend : ¬ s.inCur < s.inq.length := of_decide_eq_false hn
    exact h.withStatus hnf (by decide) fun _ => by have := h.cursor; omega
  | output a v ha _ hc => exact (h.withOutput_append hc).withIp hnf (h.toNat_ip_add_le hi (by rw [ha]; rfl))
  | taken a b y _ _ h0 => exact h.withIp hnf (toNat_of_nonneg h0).2
  | notTaken a b hj => exact h.withIp hnf (h.toNat_ip_add_le hi (jump_length hj))
  | halted hh =>
    exact (h.withStatus hnf (by decide) (fun hb => by cases hb)).withIp (by simp)
      (h.toNat_ip_add_le hi (by rw [hh]; rfl))

/-- Settles O6: a stopped engine is left alone, a fault writes the record the invariant asks for, and an effect keeps
it by the rule of each update it is made of. -/
theorem stepKeepsInvariant : Obligations.StepKeepsInvariant := by
  intro s t hs h
  obtain ⟨-, rfl⟩ | ⟨-, e, he, rfl⟩ | ⟨hr, i, hi, hx⟩ := step_effect h
  · exact hs
  · exact hs.takeFault he
  · exact hx.keeps_inv hs hr hi

/-- Settles O4, field by field: the reset engine is RUNNING and empty. -/
theorem resetMeetsInvariant : Obligations.ResetMeetsInvariant where
  config := by decide
  memory := State.reset_mem_wf
  memoryFits := Nat.zero_le _
  ipFits := Nat.zero_le _
  cursor := Nat.le_refl 0
  inputFits := fun _ h => by cases h
  outputFits := fun _ h => by cases h
  blockedStarved := fun h => by cases h
  noRecord := fun _ => ⟨rfl, rfl, rfl⟩
  record := fun h => by cases h

end Sys2Proof.Machine
end

section
/-! PROOFS. `ip` and `state` after a step, jumps included (R16, R17, R19). -/

namespace Sys2Proof.Machine

/-! ### The instruction pointer -/

/-- Where a jump that does not fault goes. -/
theorem finish_jumpIf_ip {k : Int → Bool} {a b : Operand} {s t : State}
    (h : finish s (jumpIf k a b s) = .next t) (ht : t.status ≠ .faulted) :
    ∃ x, resolve a s = .ok x ∧
      (k x.toInt = true ∧ resolve b s = .ok t.ip ∨ k x.toInt = false ∧ t.ip = s.ip + 3) := by
  obtain hj | ⟨e, -, rfl⟩ := finish_next h
  · obtain ⟨x, hx, ⟨hk, y, hy, -, rfl⟩ | ⟨hk, rfl⟩⟩ := jumpIf_ok hj
    · exact ⟨x, hx, .inl ⟨hk, hy⟩⟩
    · exact ⟨x, hx, .inr ⟨hk, rfl⟩⟩
  · exact absurd rfl ht

theorem exec_jnz_ip {a b : Operand} {s t : State} (h : exec (.jnz a b) s = .next t) (ht : t.status ≠ .faulted) :
    ∃ x, resolve a s = .ok x ∧ (x.toInt ≠ 0 ∧ resolve b s = .ok t.ip ∨ x.toInt = 0 ∧ t.ip = s.ip + 3) := by
  simpa only [decide_eq_true_eq, decide_eq_false_iff_not, not_not] using finish_jumpIf_ip h ht

theorem exec_jz_ip {a b : Operand} {s t : State} (h : exec (.jz a b) s = .next t) (ht : t.status ≠ .faulted) :
    ∃ x, resolve a s = .ok x ∧ (x.toInt = 0 ∧ resolve b s = .ok t.ip ∨ x.toInt ≠ 0 ∧ t.ip = s.ip + 3) := by
  simpa only [decide_eq_true_eq, decide_eq_false_iff_not] using finish_jumpIf_ip h ht

/-- A fault and a blocked read leave `ip` at the instruction. -/
theorem exec_ip_of_faulted_or_blocked {i : Instr} {s t : State} (hr : s.status = .running)
    (h : exec i s = .next t) (ht : t.status = .faulted ∨ t.status = .blocked) : t.ip = s.ip := by
  obtain ⟨e, -, rfl⟩ | hx := exec_next h
  · rfl
  · obtain hs | ⟨c, -, -, rfl⟩ | ⟨-, hf⟩ := hx.status_cases
    · simp [hs, hr] at ht
    · rfl
    · simp [hf] at ht

/-- An instruction that neither faults, nor blocks, nor is a taken jump moves `ip` past its words. -/
theorem exec_ip_of_not_taken {i : Instr} {s t : State} (h : exec i s = .next t) (hf : t.status ≠ .faulted)
    (hb : t.status ≠ .blocked) (hjnz : ∀ a b x, i = .jnz a b → resolve a s = .ok x → x.toInt = 0)
    (hjz : ∀ a b x, i = .jz a b → resolve a s = .ok x → x.toInt ≠ 0) :
    t.ip = s.ip + BitVec.ofNat 64 i.length := by
  obtain ⟨e, -, rfl⟩ | hx := exec_next h
  · exact absurd rfl hf
  · obtain rfl | ⟨a, b, rfl | rfl⟩ | hip := hx.ip_cases
    · exact absurd rfl hb
    · obtain ⟨x, hx, ⟨h0, -⟩ | ⟨-, hip⟩⟩ := exec_jnz_ip h hf
      · exact absurd (hjnz a b x rfl hx) h0
      · exact hip
    · obtain ⟨x, hx, ⟨h0, -⟩ | ⟨-, hip⟩⟩ := exec_jz_ip h hf
      · exact absurd h0 (hjz a b x rfl hx)
      · exact hip
    · exact hip

/-- Settles O21: the three ways of `ip`, for the instruction the step executes. -/
theorem stepAdvancesIp : Obligations.StepAdvancesIp := by
  intro s t i hs hr hi h
  have hx : exec i s = .next t := (step_of_fetch_ok hr hi).symm.trans h
  refine ⟨exec_ip_of_faulted_or_blocked hr hx, fun hgo => ?_⟩
  have hf : t.status ≠ .faulted := by rcases hgo with hgo | hgo <;> simp [hgo]
  have hb : t.status ≠ .blocked := by rcases hgo with hgo | hgo <;> simp [hgo]
  refine ⟨?_, ?_, fun hjnz hjz => ?_⟩
  · rintro a b x rfl hax hx0
    obtain ⟨x', hax', hip⟩ := exec_jnz_ip hx hf
    cases hax.symm.trans hax'
    exact (hip.resolve_right fun hn => hx0 hn.1).2
  · rintro a b x rfl hax hx0
    obtain ⟨x', hax', hip⟩ := exec_jz_ip hx hf
    cases hax.symm.trans hax'
    exact (hip.resolve_right fun hn => hn.1 hx0).2
  · rw [exec_ip_of_not_taken hx hf hb hjnz hjz, hs.toNat_ip_add_length hi, Instr.length, Nat.add_assoc]

/-! ### The status -/

theorem fetchInstr_inp_word {s : State} {c : Target} (h : fetchInstr s = .ok (.inp c)) :
    s.mem.read s.ip.toNat = some 3 ∨ s.mem.read s.ip.toNat = some 103 := by
  obtain ⟨m, w⟩ := c
  cases m with
  | position => exact .inl (fetchInstr_head h)
  | immediate => exact .inr (fetchInstr_head h)

/-- Settles O23: of the effects of an instruction only a starved IN and HALT change the status, and the word at `ip`
is the instruction's. -/
theorem statusChangesOnlyAsListed : Obligations.StatusChangesOnlyAsListed := by
  intro s t h hne
  obtain ⟨-, rfl⟩ | ⟨hr, e, -, rfl⟩ | ⟨hr, i, hi, hx⟩ := step_effect h
  · exact absurd rfl hne
  · exact ⟨hr, by simp, by simp, by simp⟩
  · obtain hs | ⟨c, rfl, hn, rfl⟩ | ⟨rfl, hf⟩ := hx.status_cases
    · exact absurd hs hne
    · have hend : ¬ s.inCur < s.inq.length := of_decide_eq_false hn
      exact ⟨hr, by simp, fun _ => ⟨fetchInstr_inp_word hi, by omega, rfl⟩, by simp⟩
    · exact ⟨hr, fun _ => fetchInstr_head hi, by simp [hf], by simp [hf]⟩

/-! ### Jumps beyond memory -/

/-- A step that executes a taken jump to a non-negative value only sets `ip`. -/
theorem step_of_taken_jump {s : State} {a b : Operand} {x y : Word} (hr : s.status = .running)
    (hi : fetchInstr s = .ok (.jnz a b) ∧ x.toInt ≠ 0 ∨ fetchInstr s = .ok (.jz a b) ∧ x.toInt = 0)
    (hx : resolve a s = .ok x) (hy : resolve b s = .ok y) (h0 : 0 ≤ y.toInt) : step s = .next (s.withIp y) := by
  obtain ⟨hi, hk⟩ | ⟨hi, hk⟩ := hi
  · rw [step_of_fetch_ok hr hi, exec, execJnz, jumpIf_of_taken hx (by simp [hk]) hy h0, finish_ok]
  · rw [step_of_fetch_ok hr hi, exec, execJz, jumpIf_of_taken hx (by simp [hk]) hy h0, finish_ok]

/-- Settles O43: `ip` is the target after the jump, and the next fetch is beyond memory. -/
theorem jumpBeyondMemoryFaultsAtNextFetch : Obligations.JumpBeyondMemoryFaultsAtNextFetch := by
  intro s a b x y hr hi hx hy hlen
  have h0 : 0 ≤ y.toInt := by omega
  have hout : (s.withIp y).mem.len ≤ (s.withIp y).ip.toNat := by
    have := (toNat_of_nonneg (Int.not_lt.2 h0)).1
    simp only [State.withIp_mem, State.withIp_ip]
    omega
  exact ⟨step_of_taken_jump hr hi hx hy h0, step_of_fetch_error hr (fetchInstr_of_len_le_ip hout)⟩

end Sys2Proof.Machine
end

section
/-! PROOFS. The I/O channel (R22 to R27): the output log only grows, what OUT does with its value, what ADD_INPUT does
with its. -/

namespace Sys2Proof.Machine

/-! ### The output log -/

theorem step_outlog_prefix {s t : State} (h : step s = .next t) : s.outlog <+: t.outlog := by
  obtain ⟨-, rfl⟩ | ⟨-, e, -, rfl⟩ | ⟨-, i, -, hx⟩ := step_effect h
  · exact List.prefix_rfl
  · exact List.prefix_rfl
  · exact hx.outlog_prefix

theorem pushInput_outlog {v : Word} {s t : State} (h : pushInput v s = some t) : t.outlog = s.outlog := by
  obtain ⟨-, ⟨-, rfl⟩ | ⟨-, rfl⟩⟩ := pushInput_some h <;> rfl

theorem takeHostFault_outlog (e : Trap) (s : State) : (takeHostFault e s).outlog = s.outlog := by
  unfold takeHostFault
  split <;> rfl

/-- Whatever the log begins with before a step, it begins with after it. -/
theorem step_keeps_outlog_prefix (l : List Word) (s t : State) (hl : l <+: s.outlog) (h : step s = .next t) :
    l <+: t.outlog :=
  hl.trans (step_outlog_prefix h)

theorem hostOp_outlog_prefix {op : HostOp} {s t : State} {r : HostResponse} (h : hostOp op s = .next (r, t)) :
    s.outlog <+: t.outlog := by
  obtain rfl | ⟨a, v, m, -, rfl⟩ | ⟨v, hv⟩ | ⟨a, rfl⟩ | hs | ⟨n, o, hn⟩ := hostOp_next h
  · exact List.prefix_rfl
  · exact List.prefix_rfl
  · rw [pushInput_outlog hv]
  · rw [takeHostFault_outlog]
  · exact step_outlog_prefix hs
  · exact runFuel_keeps (step_keeps_outlog_prefix s.outlog) List.prefix_rfl hn

/-- Settles O38: each step only appends, so a run does, and no other host operation touches the log. -/
theorem outputLogOnlyGrows : Obligations.OutputLogOnlyGrows :=
  ⟨fun _ s _ h => run_keeps (step_keeps_outlog_prefix s.outlog) List.prefix_rfl h,
    fun _ _ _ _ h => hostOp_outlog_prefix h⟩

theorem emit_of_room {v : Word} {s : State} (h : s.config.outCap ≠ some s.outlog.length) :
    emit v s = .ok (s.withOutput (s.outlog ++ [v])) := by
  simp [emit, h]

theorem emit_of_full {v : Word} {s : State} (h : s.config.outCap = some s.outlog.length) :
    emit v s = .error ⟨.outputFull, v⟩ := by
  simp [emit, h]

/-- Settles O36: OUT with its operand resolved is `Emit` of the value, which answers by the room in the log (R26). -/
theorem outputAppendsOrFaultsWhenFull : Obligations.OutputAppendsOrFaultsWhenFull := by
  intro a s v hv
  constructor
  · intro hroom
    rw [exec, execOut, writeOutput_of_resolved hv, emit_of_room hroom]
    rfl
  · intro hfull
    rw [exec, execOut, writeOutput_of_resolved hv, emit_of_full hfull]
    rfl

/-! ### The input queue -/

theorem pushInput_of_full {v : Word} {s : State} (h : s.config.inCap = some s.inq.length) :
    pushInput v s = none := by
  simp [pushInput, h]

/-- Below the capacity an input is accepted, and a BLOCKED engine is RUNNING after it (R27). -/
theorem pushInput_of_room {v : Word} {s : State} (h : s.config.inCap ≠ some s.inq.length) :
    pushInput v s = some ((s.withInput (s.inq ++ [v])).withStatus
      (if s.status = .blocked then .running else s.status)) := by
  by_cases hb : s.status = .blocked
  · simp [pushInput, h, hb]
  · simp only [pushInput, h, hb, if_false]
    rfl

/-- Settles O52: ADD_INPUT answers by what `PushInput` makes of the value (R97). -/
theorem addInputAppendsAndUnblocks : Obligations.AddInputAppendsAndUnblocks := by
  intro v s
  constructor
  · intro hroom
    refine ⟨_, by rw [hostOp, pushInput_of_room hroom], ?_⟩
    exact ⟨rfl, rfl, rfl, rfl, rfl, rfl, rfl, rfl, rfl, rfl⟩
  · intro hfull
    rw [hostOp, pushInput_of_full hfull]

end Sys2Proof.Machine
end

section
/-! PROOFS. Memory (20_memory.md): a canonical memory is determined by what it reads, what a step does to memory, and
that a word a step writes is the word the next step fetches. -/

namespace Sys2Proof.Machine

/-! ### Memories that read alike (R34, R35; log 5) -/

theorem Memory.lookup_of_mem {cells : List (Nat × Word)} {c : Nat × Word}
    (h : cells.Pairwise (fun x y => x.1 < y.1)) (hc : c ∈ cells) : Memory.lookup cells c.1 = c.2 := by
  induction cells with
  | nil => cases hc
  | cons d rest ih =>
    obtain ⟨hd, hrest⟩ := List.pairwise_cons.1 h
    rcases List.mem_cons.1 hc with rfl | hc
    · exact if_pos rfl
    · have hne : d.1 ≠ c.1 := Nat.ne_of_lt (hd c hc)
      simp only [Memory.lookup, if_neg hne]
      exact ih hrest hc

/-- A word that is not 0 is found only where it is listed. -/
theorem Memory.mem_of_lookup_ne_zero {cells : List (Nat × Word)} {a : Nat} (h : Memory.lookup cells a ≠ 0) :
    (a, Memory.lookup cells a) ∈ cells := by
  induction cells with
  | nil => exact absurd rfl h
  | cons d rest ih =>
    by_cases hd : d.1 = a
    · simp [Memory.lookup, ← hd]
    · simp only [Memory.lookup, if_neg hd] at h ⊢
      exact List.mem_cons_of_mem _ (ih h)

theorem Memory.read_eq_some {m : Memory} {a : Int} {w : Word} :
    m.read a = some w ↔ m.inRange a = true ∧ Memory.lookup m.cells a.toNat = w := by
  by_cases hin : m.inRange a = true
  · simp [Memory.read_of_inRange hin, hin]
  · simp [Memory.read_of_not_inRange hin, hin]

/-- The cells of a canonical memory are its words that are not 0. -/
theorem Memory.mem_cells_iff {m : Memory} (h : m.wf) (c : Nat × Word) :
    c ∈ m.cells ↔ c.2 ≠ 0 ∧ m.read c.1 = some c.2 := by
  obtain ⟨hrising, hlisted⟩ := h
  constructor
  · intro hc
    obtain ⟨hne, hlt⟩ := hlisted c hc
    have hin : m.inRange c.1 = true := (m.inRange_iff c.1).2 (by omega)
    exact ⟨hne, Memory.read_eq_some.2 ⟨hin, Memory.lookup_of_mem hrising hc⟩⟩
  · rintro ⟨hne, hread⟩
    have hlookup : Memory.lookup m.cells c.1 = c.2 := (Memory.read_eq_some.1 hread).2
    have hmem := Memory.mem_of_lookup_ne_zero (hlookup ▸ hne)
    rwa [hlookup] at hmem

/-- Settles O48: two canonical memories that read alike list the same cells, and rising lists with the same cells are
equal. -/
theorem memoriesThatReadAlikeAreEqual : Obligations.MemoriesThatReadAlikeAreEqual := by
  intro m m' hm hm' hlen hread
  have hcells : m.cells = m'.cells := by
    have : Std.Irrefl (fun x y : Nat × Word => x.1 < y.1) := ⟨fun x => Nat.lt_irrefl x.1⟩
    have : Std.Antisymm (fun x y : Nat × Word => x.1 < y.1) := ⟨fun x y h h' => absurd h' (Nat.lt_asymm h)⟩
    refine hm.1.eq_of_mem_iff hm'.1 fun c => ?_
    rw [Memory.mem_cells_iff hm, Memory.mem_cells_iff hm', hread]
  cases m
  cases m'
  exact congrArg₂ Memory.mk hlen hcells

/-! ### What a step does to memory (R35, R76, R80) -/

/-- An effect leaves memory, or it is one write at the instruction's write target. -/
theorem Effect.mem_cases {i : Instr} {s t : State} (h : Effect i s t) :
    t.mem = s.mem ∨ ∃ a r, writeAddress i = some a ∧ s.mem.write a r = some t.mem := by
  cases h with
  | result a r m ha hm => exact .inr ⟨a, r, ha, hm⟩
  | input c v m hi _ hm => exact .inr ⟨targetAddress c, v, by rw [hi]; rfl, hm⟩
  | block | output | taken | notTaken | halted => exact .inl rfl

theorem Effect.config_eq {i : Instr} {s t : State} (h : Effect i s t) : t.config = s.config := by
  cases h <;> rfl

/-- A step leaves memory, or it is one write at the write target of the instruction it fetches. -/
theorem step_mem_cases {s t : State} (h : step s = .next t) :
    t.mem = s.mem ∨ ∃ i a r, fetchInstr s = .ok i ∧ writeAddress i = some a ∧ s.mem.write a r = some t.mem := by
  obtain ⟨-, rfl⟩ | ⟨-, e, -, rfl⟩ | ⟨-, i, hi, hx⟩ := step_effect h
  · exact .inl rfl
  · exact .inl rfl
  · obtain hm | ⟨a, r, ha, hm⟩ := hx.mem_cases
    · exact .inl hm
    · exact .inr ⟨i, a, r, hi, ha, hm⟩

theorem step_config {s t : State} (h : step s = .next t) : t.config = s.config := by
  obtain ⟨-, rfl⟩ | ⟨-, e, -, rfl⟩ | ⟨-, i, -, hx⟩ := step_effect h
  · rfl
  · rfl
  · exact hx.config_eq

/-- Settles O47: the one write a step can make keeps `MEM_LEN` and every address but its own. -/
theorem stepWritesOnlyItsTarget : Obligations.StepWritesOnlyItsTarget := by
  intro s t h
  obtain hm | ⟨i, a, r, hi, ha, hm⟩ := step_mem_cases h
  · exact ⟨by rw [hm], step_config h, fun b _ => by rw [hm]⟩
  · refine ⟨Memory.write_len hm, step_config h, fun b hb => Memory.read_write_other hm ?_⟩
    rintro rfl
    exact hb i hi ha

/-! ### A written word is fetched next (R44, R124) -/

/-- The execute phase of ADD, MUL, LT and EQ with operands, target and result known: one write, and `ip` past the four
words. -/
theorem writeResult_of_result {a b : Operand} {c : Target} {f : Int → Int → Except Trap Word} {s : State}
    {x y r : Word} (hx : resolve a s = .ok x) (hy : resolve b s = .ok y)
    (hc : s.mem.inRange (targetAddress c) = true) (hr : f x.toInt y.toInt = .ok r) :
    ∃ m, s.mem.write (targetAddress c) r = some m ∧
      writeResult a b c f s = .ok ((s.withMem m).withIp (s.ip + 4)) :=
  ⟨_, Memory.write_of_inRange r hc, by rw [writeResult_of_resolved hx hy hc, hr]; rfl⟩

/-- A number that is a word is its own result, whatever the overflow policy (R81). -/
theorem narrow_toInt (p : OverflowPolicy) (r : Word) : narrow p r.toInt = .ok r := by
  have hlo := r.le_toInt
  have hhi := r.toInt_lt
  rw [narrow_of_inInt64 p (by omega), BitVec.ofInt_toInt]

/-- ADD with a sum in `Int64` (R82). -/
theorem exec_add_of_sum {a b : Operand} {c : Target} {s : State} {x y r : Word} (hx : resolve a s = .ok x)
    (hy : resolve b s = .ok y) (hc : s.mem.inRange (targetAddress c) = true) (hr : r.toInt = x.toInt + y.toInt) :
    ∃ m, s.mem.write (targetAddress c) r = some m ∧
      exec (.add a b c) s = .next ((s.withMem m).withIp (s.ip + 4)) := by
  have hnarrow : narrow s.config.overflow (x.toInt + y.toInt) = .ok r := hr ▸ narrow_toInt _ r
  obtain ⟨m, hm, hw⟩ := writeResult_of_result (f := fun x y => narrow s.config.overflow (x + y)) hx hy hc hnarrow
  exact ⟨m, hm, by rw [exec, execAdd, hw, finish_ok]⟩

theorem fetchInstr_of_decodeHead_ok {s : State} {w : Word} {h : Head} (hw : s.mem.read s.ip.toNat = some w)
    (hd : decodeHead w = .ok h) : fetchInstr s = h.complete (fun k => memRead (s.ip.toNat + k) s) := by
  simp [fetchInstr, memRead_ok.2 hw, hd]

theorem fetchInstr_of_decodeHead_error {s : State} {w : Word} {e : DecodeError}
    (hw : s.mem.read s.ip.toNat = some w) (hd : decodeHead w = .error e) :
    fetchInstr s = .error (decodeTrap s.ip e) := by
  simp [fetchInstr, memRead_ok.2 hw, hd]

/-- HALT is the only instruction without arguments (R49). -/
theorem Head.eq_halt_of_arity_zero {h : Head} (h0 : h.arity = 0) : h = .halt := by
  cases h with
  | halt => rfl
  | add | mul | inp | out | jnz | jz | lt | eq => cases h0

/-- Settles O49: the sum is written at the `ip` the ADD moves to, so it is the word the next step fetches. -/
theorem writtenWordIsFetchedNext : Obligations.WrittenWordIsFetchedNext := by
  intro s a b c x y r hs hr hi hx hy hsum htarget hlen
  have hin : s.mem.inRange (targetAddress c) = true := (Memory.inRange_iff _ _).2 (by omega)
  obtain ⟨m, hm, hexec⟩ := exec_add_of_sum hx hy hin hsum
  have hip : (s.ip + 4).toNat = s.ip.toNat + 4 := hs.toNat_ip_add_length hi
  have hread : m.read (s.ip + 4).toNat = some r := by
    rw [hip, Nat.cast_add, Nat.cast_ofNat, ← htarget]
    exact Memory.read_write_same hs.memory hm
  refine ⟨_, (step_of_fetch_ok hr hi).trans hexec, hread, fun h hd h0 => ?_, fun e he => ?_⟩
  · obtain rfl := Head.eq_halt_of_arity_zero h0
    exact step_of_fetch_ok hr (fetchInstr_of_decodeHead_ok hread hd)
  · exact step_of_fetch_error hr (fetchInstr_of_decodeHead_error hread he)

end Sys2Proof.Machine
end

section
/-! PROOFS. The decoder and the encoder (R48 to R54, R60, R65): encoding and decoding undo each other, which words are
legal, and which fault every other word takes. -/

namespace Sys2Proof.Machine

/-! ### Decoding an encoding (R65, R67) -/

/-- The head of an instruction: its opcode with the modes it spells. -/
def instrHead : Instr → Head
  | .add a b c => .add a.mode b.mode c.digit
  | .mul a b c => .mul a.mode b.mode c.digit
  | .inp a => .inp a.digit
  | .out a => .out a.mode
  | .jnz a b => .jnz a.mode b.mode
  | .jz a b => .jz a.mode b.mode
  | .lt a b c => .lt a.mode b.mode c.digit
  | .eq a b c => .eq a.mode b.mode c.digit
  | .halt => .halt

theorem headNumber_instrHead (i : Instr) : headNumber (instrHead i) = i.head := by
  cases i <;> rfl

theorem instrHead_arity (i : Instr) : (instrHead i).arity = i.args.length := by
  cases i <;> rfl

/-- The number of a head decodes to that head: the heads are finitely many. -/
theorem decodeHead_headNumber (h : Head) : decodeHead (BitVec.ofNat 64 (headNumber h)) = .ok h := by
  cases h with
  | halt => rfl
  | inp m1 | out m1 => cases m1 <;> rfl
  | jnz m1 m2 | jz m1 m2 => cases m1 <;> cases m2 <;> rfl
  | add m1 m2 m3 | mul m1 m2 m3 | lt m1 m2 m3 | eq m1 m2 m3 => cases m1 <;> cases m2 <;> cases m3 <;> rfl

theorem complete_instrHead (i : Instr) (rest : List Word) :
    (instrHead i).complete (argIn (i.args ++ rest)) = .ok i := by
  cases i <;> rfl

/-- What `decode` makes of an instruction word whose head and arguments are known. -/
theorem decode_cons_of_complete {w : Word} {ws : List Word} {h : Head} {i : Instr} (hd : decodeHead w = .ok h)
    (hi : h.complete (argIn ws) = .ok i) : decode (w :: ws) = .ok (i, ws.drop h.arity) := by
  simp [decode, bind, Except.bind, pure, Except.pure, hd, hi]

/-- Settles O8: the instruction word decodes to the instruction's head, and its arguments are the words after it. -/
theorem decodeOfEncode : Obligations.DecodeOfEncode := by
  intro i rest
  have hd : decodeHead (BitVec.ofNat 64 i.head) = .ok (instrHead i) :=
    headNumber_instrHead i ▸ decodeHead_headNumber (instrHead i)
  calc decode (encode i ++ rest)
      = .ok (i, (i.args ++ rest).drop (instrHead i).arity) := decode_cons_of_complete hd (complete_instrHead i rest)
    _ = .ok (i, rest) := by rw [instrHead_arity, List.drop_left]

/-! ### Encoding what was decoded (R60, R62) -/

theorem decode_ok {ws rest : List Word} {i : Instr} (h : decode ws = .ok (i, rest)) :
    ∃ w us hd, ws = w :: us ∧ decodeHead w = .ok hd ∧ hd.complete (argIn us) = .ok i ∧ rest = us.drop hd.arity := by
  cases ws with
  | nil => cases h
  | cons w us =>
    simp only [decode, bind, Except.bind] at h
    split at h
    · cases h
    · rename_i hd hdec
      split at h
      · cases h
      · rename_i j hj
        cases h
        exact ⟨w, us, hd, rfl, hdec, hj, rfl⟩

theorem argIn_succ_ok {ws : List Word} {k : Nat} {w : Word} (h : argIn ws (k + 1) = .ok w) : ws[k]? = some w := by
  unfold argIn at h
  split at h <;> cases h
  assumption

/-- The arguments of a complete instruction are the words in front. -/
theorem args_prefix_of_complete {ws : List Word} {h : Head} {i : Instr} (hi : h.complete (argIn ws) = .ok i) :
    i.args <+: ws :=
  List.prefix_iff_getElem?.2 fun k hk => argIn_succ_ok ((Head.complete_ok hi).2 k hk)

/-- Settles O9: only one number decodes to a head, and the words the arguments were read from are the arguments. -/
theorem encodeOfDecode : Obligations.EncodeOfDecode := by
  intro ws i rest h
  obtain ⟨w, us, hd, rfl, hdec, hc, rfl⟩ := decode_ok h
  have hw : w = BitVec.ofNat 64 i.head := by rw [decodeHead_ok hdec, Head.complete_head hc]
  have hargs : i.args ++ us.drop hd.arity = us := by
    rw [← (Head.complete_ok hc).1]
    exact List.prefix_iff_eq_append.1 (args_prefix_of_complete hc)
  rw [encode, List.cons_append, hargs, hw]

/-- Settles O10: each row of the table is computed. -/
theorem decodeExamplesOfTheSpec : Obligations.DecodeExamplesOfTheSpec :=
  ⟨rfl, rfl, rfl, rfl, rfl, rfl, rfl, rfl, rfl, rfl, rfl, rfl, rfl⟩

/-! ### The mode digits (R50, R52, R53) -/

/-- `md` spells the modes of `n` arguments: no digit beyond theirs (R53), each of theirs 0 or 1 (R52). -/
def LegalModes (n md : Nat) : Prop := md < 10 ^ n ∧ ∀ k, k < n → digit k md ≤ 1

theorem modeOf_of_le_one {d : Nat} (h : d ≤ 1) : ∃ m, modeOf d = some m := by
  obtain rfl | rfl := Nat.le_one_iff_eq_zero_or_eq_one.1 h
  · exact ⟨_, rfl⟩
  · exact ⟨_, rfl⟩

theorem LegalModes.exists_mode {n md k : Nat} (h : LegalModes n md) (hk : k < n) : ∃ m, modeOf (digit k md) = some m :=
  modeOf_of_le_one (h.2 k hk)

theorem legalModes_zero : LegalModes 0 0 := ⟨by decide, by decide⟩

theorem legalModes_one (m1 : Mode) : LegalModes 1 m1.digit := by
  cases m1 <;> exact ⟨by decide, by decide⟩

theorem legalModes_two (m1 m2 : Mode) : LegalModes 2 (m1.digit + 10 * m2.digit) := by
  cases m1 <;> cases m2 <;> exact ⟨by decide, by decide⟩

theorem legalModes_three (m1 m2 m3 : Mode) : LegalModes 3 (m1.digit + 10 * m2.digit + 100 * m3.digit) := by
  cases m1 <;> cases m2 <;> cases m3 <;> exact ⟨by decide, by decide⟩

/-- What a reader of the modes of `n` arguments answers: a head exactly for legal modes, `UNEXPECTED_MODE` for all
others. -/
def ReadsModes (w : Word) (n md : Nat) (r : Except DecodeError Head) : Prop :=
  LegalModes n md ∧ (∃ h, r = .ok h) ∨ ¬ LegalModes n md ∧ r = .error (.unexpectedMode w)

theorem noModes_reads (w : Word) (md : Nat) (g : Head) : ReadsModes w 0 md (noModes w md g) := by
  cases hr : noModes w md g with
  | ok h =>
    obtain ⟨rfl, -⟩ := noModes_ok hr
    exact .inl ⟨legalModes_zero, h, rfl⟩
  | error e =>
    unfold noModes at hr
    split at hr <;> cases hr
    exact .inr ⟨fun ⟨hlt, _⟩ => by omega, rfl⟩

theorem oneMode_reads (w : Word) (md : Nat) (g : Mode → Head) : ReadsModes w 1 md (oneMode w md g) := by
  cases hr : oneMode w md g with
  | ok h =>
    obtain ⟨m1, rfl, -⟩ := oneMode_ok hr
    exact .inl ⟨legalModes_one m1, h, rfl⟩
  | error e =>
    unfold oneMode at hr
    split at hr
    · cases hr
      exact .inr ⟨fun ⟨hlt, _⟩ => by omega, rfl⟩
    · split at hr <;> cases hr
      rename_i hno
      refine .inr ⟨fun hl => ?_, rfl⟩
      obtain ⟨m1, h1⟩ := hl.exists_mode (k := 0) (by decide)
      simp [h1] at hno

theorem twoModes_reads (w : Word) (md : Nat) (g : Mode → Mode → Head) : ReadsModes w 2 md (twoModes w md g) := by
  cases hr : twoModes w md g with
  | ok h =>
    obtain ⟨m1, m2, rfl, -⟩ := twoModes_ok hr
    exact .inl ⟨legalModes_two m1 m2, h, rfl⟩
  | error e =>
    unfold twoModes at hr
    split at hr
    · cases hr
      exact .inr ⟨fun ⟨hlt, _⟩ => by omega, rfl⟩
    · split at hr <;> cases hr
      rename_i hno
      refine .inr ⟨fun hl => ?_, rfl⟩
      obtain ⟨m1, h1⟩ := hl.exists_mode (k := 0) (by decide)
      obtain ⟨m2, h2⟩ := hl.exists_mode (k := 1) (by decide)
      exact hno m1 m2 h1 h2

theorem threeModes_reads (w : Word) (md : Nat) (g : Mode → Mode → Mode → Head) :
    ReadsModes w 3 md (threeModes w md g) := by
  cases hr : threeModes w md g with
  | ok h =>
    obtain ⟨m1, m2, m3, rfl, -⟩ := threeModes_ok hr
    exact .inl ⟨legalModes_three m1 m2 m3, h, rfl⟩
  | error e =>
    unfold threeModes at hr
    split at hr
    · cases hr
      exact .inr ⟨fun ⟨hlt, _⟩ => by omega, rfl⟩
    · split at hr <;> cases hr
      rename_i hno
      refine .inr ⟨fun hl => ?_, rfl⟩
      obtain ⟨m1, h1⟩ := hl.exists_mode (k := 0) (by decide)
      obtain ⟨m2, h2⟩ := hl.exists_mode (k := 1) (by decide)
      obtain ⟨m3, h3⟩ := hl.exists_mode (k := 2) (by decide)
      exact hno m1 m2 m3 h1 h2 h3

/-! ### Which words are legal (R54, R59, R60) -/

/-- An opcode of the table has the modes of its arity read. -/
theorem decodeNat_reads (w : Word) {m n : Nat} (hn : arityOf (m % 100) = some n) :
    ReadsModes w n (m / 100) (decodeNat w m) := by
  unfold decodeNat
  unfold arityOf at hn
  split at hn <;> rename_i hop
  all_goals cases hn
  all_goals simp only [hop]
  case h_1 | h_2 | h_3 | h_4 => exact threeModes_reads ..
  case h_5 | h_6 => exact oneMode_reads ..
  case h_7 | h_8 => exact twoModes_reads ..
  case h_9 => exact noModes_reads ..

/-- An opcode outside the table is unexpected. -/
theorem decodeNat_of_no_arity (w : Word) {m : Nat} (hn : arityOf (m % 100) = none) :
    decodeNat w m = .error (.unexpectedOpcode w) := by
  unfold decodeNat
  split <;> rename_i hop
  case h_10 => rfl
  all_goals simp [hop, arityOf] at hn

theorem decodeHead_of_neg {w : Word} (h : w.toInt < 0) : decodeHead w = .error (.unexpectedOpcode w) := by
  simp [decodeHead, h]

theorem decodeHead_of_nonneg {w : Word} (h : 0 ≤ w.toInt) : decodeHead w = decodeNat w w.toInt.toNat := by
  simp [decodeHead, Int.not_lt.2 h]

/-- A legal opcode whose modes are not legal is an unexpected mode. -/
theorem decodeHead_of_illegal_modes {w : Word} {n : Nat} (h0 : 0 ≤ w.toInt)
    (hn : arityOf (w.toInt.toNat % 100) = some n) (hl : ¬ LegalModes n (w.toInt.toNat / 100)) :
    decodeHead w = .error (.unexpectedMode w) := by
  rw [decodeHead_of_nonneg h0]
  exact ((decodeNat_reads w hn).resolve_left fun h => hl h.1).2

theorem decodeHead_of_legal_modes {w : Word} {n : Nat} (h0 : 0 ≤ w.toInt)
    (hn : arityOf (w.toInt.toNat % 100) = some n) (hl : LegalModes n (w.toInt.toNat / 100)) :
    ∃ h, decodeHead w = .ok h := by
  rw [decodeHead_of_nonneg h0]
  exact ((decodeNat_reads w hn).resolve_right fun h => h.1 hl).2

/-- Settles O11: a word that is negative, has no arity or has illegal modes is an error, and every other decodes. -/
theorem decodeAcceptsExactlyLegalWords : Obligations.DecodeAcceptsExactlyLegalWords := by
  intro w
  constructor
  · rintro ⟨h, hd⟩
    have h0 : 0 ≤ w.toInt := by
      by_contra hneg
      cases (decodeHead_of_neg (Int.not_le.1 hneg)).symm.trans hd
    refine ⟨h0, ?_⟩
    cases hn : arityOf (w.toInt.toNat % 100) with
    | none => cases (decodeNat_of_no_arity w hn).symm.trans ((decodeHead_of_nonneg h0).symm.trans hd)
    | some n =>
      refine ⟨n, rfl, ?_⟩
      by_contra hl
      cases (decodeHead_of_illegal_modes h0 hn hl).symm.trans hd
  · rintro ⟨h0, n, hn, hl⟩
    exact decodeHead_of_legal_modes h0 hn hl

/-! ### The faults of the words that are not legal -/

theorem step_of_decodeHead_error {s : State} {w : Word} {e : DecodeError} (hr : s.status = .running)
    (hw : s.mem.read s.ip.toNat = some w) (he : decodeHead w = .error e) :
    step s = .next (takeFault (decodeTrap s.ip e) s) :=
  step_of_fetch_error hr (fetchInstr_of_decodeHead_error hw he)

/-- The opcodes of the table. -/
theorem mem_opcodes_of_arityOf {m n : Nat} (h : arityOf m = some n) : m ∈ [1, 2, 3, 4, 5, 6, 7, 8, 99] := by
  unfold arityOf at h
  split at h
  case h_10 => cases h
  all_goals decide

/-- Settles O12: a negative word has no opcode, and an opcode with an arity is one of the table. -/
theorem unexpectedOpcodeFaults : Obligations.UnexpectedOpcodeFaults := by
  intro s w hr hw h
  refine step_of_decodeHead_error hr hw (e := .unexpectedOpcode w) ?_
  obtain hneg | ⟨h0, hop⟩ := h
  · exact decodeHead_of_neg hneg
  · rw [decodeHead_of_nonneg h0]
    cases hn : arityOf (w.toInt.toNat % 100) with
    | none => exact decodeNat_of_no_arity w hn
    | some n =>
      have := mem_opcodes_of_arityOf hn
      simp only [List.mem_cons, List.not_mem_nil, or_false] at this hop
      omega

/-- Settles O13: a digit beyond the arity makes the modes illegal. -/
theorem digitBeyondArityFaults : Obligations.DigitBeyondArityFaults := by
  intro s w n hr hw h0 hn hbeyond
  exact step_of_decodeHead_error hr hw
    (decodeHead_of_illegal_modes h0 hn fun ⟨hlt, _⟩ => absurd hbeyond (Nat.not_le.2 hlt))

/-- The digits of `n div 100` are those of `n` from digit 2 on (R50). -/
theorem digit_div_hundred (k n : Nat) : digit k (n / 100) = digit (k + 2) n := by
  rw [digit, digit, Nat.div_div_eq_div_mul, Nat.pow_add, Nat.mul_comm]

/-- Settles O14: a digit of 2 or more in an argument's place makes the modes illegal. -/
theorem badModeDigitFaults : Obligations.BadModeDigitFaults := by
  intro s w n k hr hw h0 hn hk hkn hbad
  refine step_of_decodeHead_error hr hw (decodeHead_of_illegal_modes h0 hn fun ⟨_, hdigit⟩ => ?_)
  have hle := hdigit (k - 1) (by omega)
  rw [digit_div_hundred, show k - 1 + 2 = k + 1 by omega] at hle
  omega

end Sys2Proof.Machine
end

section
/-! PROOFS. Operands and write targets (R55 to R57): what `Resolve` answers, that a write target's digit has no effect,
where an operand or a target outside memory faults, and that every operation has an answer (R69, R106). -/

namespace Sys2Proof.Machine

/-! ### The parameter resolver (R55, R56) -/

theorem Memory.read_eq_none {m : Memory} {a : Int} : m.read a = none ↔ m.inRange a = false := by
  cases h : m.inRange a <;> simp [Memory.read, h]

/-- The offending address is recorded as the argument word itself. -/
theorem addressTrap_toInt (w : Word) : addressTrap w.toInt = ⟨.address, w⟩ := by
  rw [addressTrap, BitVec.ofInt_toInt]

theorem resolve_position_of_not_inRange {w : Word} {s : State} (h : s.mem.inRange w.toInt = false) :
    resolve ⟨.position, w⟩ s = .error ⟨.address, w⟩ :=
  memRead_error.2 ⟨h, (addressTrap_toInt w).symm⟩

/-- A Position operand outside memory, in the words of the statements. -/
theorem resolve_of_read_none {o : Operand} {s : State} (hm : o.mode = .position)
    (h : s.mem.read o.raw.toInt = none) : resolve o s = .error ⟨.address, o.raw⟩ := by
  obtain ⟨m, w⟩ := o
  subst hm
  exact resolve_position_of_not_inRange (Memory.read_eq_none.1 h)

/-- Settles O24, a Position word by whether it names a word of memory. -/
theorem resolveFollowsTheModes : Obligations.ResolveFollowsTheModes := by
  intro w s
  refine ⟨resolve_immediate w s, fun hin => ?_, fun hout => ?_⟩
  · have hread := Memory.read_of_inRange ((Memory.inRange_iff _ _).2 hin)
    exact ⟨_, hread, memRead_ok.2 hread⟩
  · rw [← Memory.inRange_iff, Bool.not_eq_true] at hout
    exact resolve_position_of_not_inRange hout

/-! ### The write target (R57) -/

/-- Settles O25: no execute phase reads more of a write target than its address. -/
theorem writeTargetDigitIsIgnored : Obligations.WriteTargetDigitIsIgnored := by
  intro i
  cases i <;> rfl

theorem checkTarget_of_not_inRange {c : Target} {s : State} (h : s.mem.inRange c.raw.toInt = false) :
    checkTarget (targetAddress c) s = .error ⟨.address, c.raw⟩ :=
  checkTarget_error.2 ⟨h, (addressTrap_toInt c.raw).symm⟩

/-! ### The order of the faults (R109) -/

/-- ADD, MUL, LT and EQ are the one execute phase with two operands and a write target. -/
theorem exec_eq_writeResult {a b : Operand} {c : Target} {i : Instr} (s : State)
    (hi : i ∈ [Instr.add a b c, .mul a b c, .lt a b c, .eq a b c]) :
    ∃ f, exec i s = finish s (writeResult a b c f s) := by
  simp only [List.mem_cons, List.not_mem_nil, or_false] at hi
  obtain rfl | rfl | rfl | rfl := hi <;> exact ⟨_, rfl⟩

section
variable {a b : Operand} {c : Target} {s : State} {x y : Word} {e : Trap}

theorem writeResult_of_first_error (f : Int → Int → Except Trap Word) (ha : resolve a s = .error e) :
    writeResult a b c f s = .error e := by
  simp [writeResult, bind, Except.bind, ha]

theorem writeResult_of_second_error (f : Int → Int → Except Trap Word) (ha : resolve a s = .ok x)
    (hb : resolve b s = .error e) : writeResult a b c f s = .error e := by
  simp [writeResult, bind, Except.bind, ha, hb]

theorem writeResult_of_target_error (f : Int → Int → Except Trap Word) (ha : resolve a s = .ok x)
    (hb : resolve b s = .ok y) (hc : checkTarget (targetAddress c) s = .error e) :
    writeResult a b c f s = .error e := by
  simp [writeResult, bind, Except.bind, ha, hb, hc]

theorem jumpIf_of_first_error (k : Int → Bool) (ha : resolve a s = .error e) : jumpIf k a b s = .error e := by
  simp [jumpIf, bind, Except.bind, ha]

theorem jumpIf_of_second_error {k : Int → Bool} (ha : resolve a s = .ok x) (hk : k x.toInt = true)
    (hb : resolve b s = .error e) : jumpIf k a b s = .error e := by
  simp [jumpIf, bind, Except.bind, ha, hk, hb]

theorem writeOutput_of_error (ha : resolve a s = .error e) : writeOutput a s = .error e := by
  simp [writeOutput, bind, Except.bind, ha]

theorem readInput_of_target_error (hc : checkTarget (targetAddress c) s = .error e) : readInput c s = .error e := by
  simp [readInput, bind, Except.bind, hc]

end

/-- Settles O26: every execute phase with an operand 1 resolves it first. -/
theorem badFirstOperandFaults : Obligations.BadFirstOperandFaults := by
  intro a b c s hm hread i hi
  have ha := resolve_of_read_none hm hread
  obtain hi | hi := List.mem_append.1 (show i ∈ [Instr.add a b c, .mul a b c, .lt a b c, .eq a b c] ++ _ from hi)
  · obtain ⟨f, hf⟩ := exec_eq_writeResult s hi
    rw [hf, writeResult_of_first_error f ha, finish_error]
  · simp only [List.mem_cons, List.not_mem_nil, or_false] at hi
    obtain rfl | rfl | rfl := hi
    · rw [exec, execOut, writeOutput_of_error ha, finish_error]
    · rw [exec, execJnz, jumpIf_of_first_error _ ha, finish_error]
    · rw [exec, execJz, jumpIf_of_first_error _ ha, finish_error]

/-- Settles O27: operand 2 is resolved after operand 1 and before the write target; by a jump, when it is taken. -/
theorem badSecondOperandFaults : Obligations.BadSecondOperandFaults := by
  intro a b c s x ha hm hread
  have hb := resolve_of_read_none hm hread
  refine ⟨fun i hi => ?_, fun hx => ?_, fun hx => ?_⟩
  · obtain ⟨f, hf⟩ := exec_eq_writeResult s hi
    rw [hf, writeResult_of_second_error f ha hb, finish_error]
  · rw [exec, execJnz, jumpIf_of_second_error ha (decide_eq_true hx) hb, finish_error]
  · rw [exec, execJz, jumpIf_of_second_error ha (decide_eq_true hx) hb, finish_error]

/-- Settles O28: the target is checked before the result is computed, and in IN before the input is looked for. -/
theorem badWriteTargetFaults : Obligations.BadWriteTargetFaults := by
  intro a b c s hout
  have hc := checkTarget_of_not_inRange hout
  refine ⟨fun x y ha hb i hi => ?_, ?_⟩
  · obtain ⟨f, hf⟩ := exec_eq_writeResult s hi
    rw [hf, writeResult_of_target_error f ha hb hc, finish_error]
  · rw [exec, execInp, readInput_of_target_error hc, finish_error]

/-! ### Every operation answers (R60, R69, R106) -/

theorem finish_total (s : State) (r : Except Trap State) : ∃ t, finish s r = .next t := by
  cases r with
  | ok t => exact ⟨t, rfl⟩
  | error e => exact ⟨takeFault e s, rfl⟩

/-- No arm of the dispatch refuses: each ends in `finish`. -/
theorem exec_total (i : Instr) (s : State) : ∃ t, exec i s = .next t := by
  cases i with
  | add | mul | lt | eq | inp | out | jnz | jz => exact finish_total s _
  | halt => exact ⟨_, rfl⟩

theorem step_total (s : State) : ∃ t, step s = .next t := by
  by_cases hr : s.status = .running
  · cases hi : fetchInstr s with
    | error e => exact ⟨_, step_of_fetch_error hr hi⟩
    | ok i =>
      rw [step_of_fetch_ok hr hi]
      exact exec_total i s
  · exact ⟨s, by simp [step, hr]⟩

theorem runFuel_total (fuel : Nat) (s : State) : ∃ o t, runFuel fuel s = .next (o, t) := by
  induction fuel generalizing s with
  | zero => exact ⟨none, s, rfl⟩
  | succ fuel ih =>
    obtain ⟨t, ht⟩ := step_total s
    simp only [runFuel, ht]
    split
    · exact ih t
    · exact ⟨_, _, rfl⟩

theorem hostOp_total (op : HostOp) (s : State) : ∃ r t, hostOp op s = .next (r, t) := by
  cases op with
  | read | replace | addInput => exact ⟨_, _, rfl⟩
  | readOutputs | lastOutput | finished | blocked | faultStatus => exact ⟨_, _, rfl⟩
  | step =>
    obtain ⟨t, ht⟩ := step_total s
    exact ⟨.stepped (stepResponse s t), t, by simp [hostOp, ht]⟩
  | run fuel =>
    obtain ⟨o, t, ht⟩ := runFuel_total fuel s
    cases o with
    | none => exact ⟨.running, t, by simp [hostOp, ht]⟩
    | some st => exact ⟨.ran st, t, by simp [hostOp, ht]⟩

/-- Settles O17: the step by its fetch, the host operations one by one, RUN by induction on its fuel. -/
theorem everyOperationAnswersNext : Obligations.EveryOperationAnswersNext :=
  ⟨step_total, hostOp_total⟩

end Sys2Proof.Machine
end

section
/-! PROOFS. Text and listings: program text is read back word for word (R63, R94), and what the pseudo-instructions
assemble to (R66). -/

namespace Sys2Proof.Machine

/-! ### Decimal digits -/

theorem inInt64_toInt (w : Word) : InInt64 w.toInt := by
  have hlo := w.le_toInt
  have hhi := w.toInt_lt
  omega

theorem wordOfInt_toInt (w : Word) : wordOfInt w.toInt = some w := by
  rw [wordOfInt, if_pos (inInt64_toInt w), BitVec.ofInt_toInt]

theorem digitValue_digitChar : ∀ {d : Nat}, d < 10 → digitValue (digitChar d) = some d := by
  decide

/-- The digits of a number spell it: read before other digits, they leave the number read so far. -/
theorem digitsValue_digitsOf {fuel n : Nat} (acc : List Char) (hn : n < 10 ^ (fuel + 1)) :
    digitsValue 0 (digitsOf fuel n acc) = digitsValue n acc := by
  induction fuel generalizing n acc with
  | zero =>
    have hmod : n % 10 = n := Nat.mod_eq_of_lt hn
    simp [digitsOf, digitsValue, hmod, digitValue_digitChar hn]
  | succ fuel ih =>
    unfold digitsOf
    split
    · rename_i hlt
      simp [digitsValue, digitValue_digitChar hlt]
    · have hdiv : n / 10 < 10 ^ (fuel + 1) := Nat.div_lt_of_lt_mul (by rwa [Nat.pow_succ'] at hn)
      rw [ih _ hdiv, digitsValue, digitValue_digitChar (Nat.mod_lt n (by decide))]
      exact congrArg (digitsValue · acc) (Nat.div_add_mod n 10)

/-- `[0-9]+`: at least one character, and every one a digit. -/
def IsDigits (t : List Char) : Prop := t ≠ [] ∧ ∀ c ∈ t, (digitValue c).isSome

theorem isDigits_digitChar_cons {d : Nat} {acc : List Char} (hd : d < 10) (hacc : ∀ c ∈ acc, (digitValue c).isSome) :
    IsDigits (digitChar d :: acc) :=
  ⟨List.cons_ne_nil _ _, List.forall_mem_cons.2 ⟨by simp [digitValue_digitChar hd], hacc⟩⟩

theorem isDigits_digitsOf (fuel n : Nat) {acc : List Char} (hacc : ∀ c ∈ acc, (digitValue c).isSome) :
    IsDigits (digitsOf fuel n acc) := by
  induction fuel generalizing n acc with
  | zero => exact isDigits_digitChar_cons (Nat.mod_lt n (by decide)) hacc
  | succ fuel ih =>
    unfold digitsOf
    split
    · exact isDigits_digitChar_cons (by assumption) hacc
    · exact ih _ (isDigits_digitChar_cons (Nat.mod_lt n (by decide)) hacc).2

/-- A character that is no digit differs from every digit. -/
theorem ne_of_isSome_digitValue {c d : Char} (hc : (digitValue c).isSome) (hd : digitValue d = none) : c ≠ d := by
  rintro rfl
  simp [hd] at hc

theorem isSpace_of_isSome_digitValue {c : Char} (hc : (digitValue c).isSome) : isSpace c = false := by
  simp [isSpace, ne_of_isSome_digitValue hc (d := ' ') rfl, ne_of_isSome_digitValue hc (d := '\t') rfl,
    ne_of_isSome_digitValue hc (d := '\r') rfl, ne_of_isSome_digitValue hc (d := '\n') rfl]

/-! ### A word as a literal (R63) -/

theorem parseNat_of_ne_nil {t : List Char} (h : t ≠ []) : parseNat t = digitsValue 0 t := by
  cases t with
  | nil => exact absurd rfl h
  | cons => rfl

/-- A literal without a sign is its digits. -/
theorem parseInt_of_isDigits {t : List Char} {n : Nat} (h : IsDigits t) (hn : parseNat t = some n) :
    parseInt t = some (n : Int) := by
  unfold parseInt
  split
  · exact absurd rfl (ne_of_isSome_digitValue (h.2 '-' (by simp)) (d := '-') rfl)
  · simp [hn]

theorem parseInt_minus {t : List Char} {n : Nat} (hn : parseNat t = some n) :
    parseInt ('-' :: t) = some (-(n : Int)) := by
  simp [parseInt, hn]

/-- The magnitude of a word has at most 19 digits, and they are read back. -/
theorem parseNat_digitsOf_natAbs (w : Word) : parseNat (digitsOf 18 w.toInt.natAbs []) = some w.toInt.natAbs := by
  have hlt : w.toInt.natAbs < 10 ^ (18 + 1) := by
    have := inInt64_toInt w
    omega
  rw [parseNat_of_ne_nil (isDigits_digitsOf 18 _ (by simp)).1, digitsValue_digitsOf [] hlt, digitsValue]

theorem parseInt_renderWord (w : Word) : parseInt (renderWord w) = some w.toInt := by
  have hn := parseNat_digitsOf_natAbs w
  unfold renderWord
  split
  · rw [parseInt_minus hn, Int.ofNat_natAbs_of_nonpos (by omega), Int.neg_neg]
  · rw [parseInt_of_isDigits (isDigits_digitsOf 18 _ (by simp)) hn, Int.natAbs_of_nonneg (by omega)]

/-- The characters of a literal are digits and the sign. -/
theorem mem_renderWord {w : Word} {c : Char} (h : c ∈ renderWord w) : c = '-' ∨ (digitValue c).isSome := by
  have hdigits := (isDigits_digitsOf 18 w.toInt.natAbs (acc := []) (by simp)).2
  unfold renderWord at h
  split at h
  · obtain rfl | h := List.mem_cons.1 h
    · exact .inl rfl
    · exact .inr (hdigits c h)
  · exact .inr (hdigits c h)

theorem comma_notMem_renderWord (w : Word) : ',' ∉ renderWord w := by
  intro h
  obtain h | h := mem_renderWord h
  · cases h
  · cases h

theorem isSpace_of_mem_renderWord {w : Word} {c : Char} (h : c ∈ renderWord w) : isSpace c = false := by
  obtain rfl | h := mem_renderWord h
  · rfl
  · exact isSpace_of_isSome_digitValue h

theorem dropWhile_isSpace_of_no_space {t : List Char} (h : ∀ c ∈ t, isSpace c = false) : t.dropWhile isSpace = t := by
  cases t with
  | nil => rfl
  | cons c t => simp [h c (by simp)]

theorem trim_of_no_space {t : List Char} (h : ∀ c ∈ t, isSpace c = false) : trim t = t := by
  have hrev : ∀ c ∈ t.reverse, isSpace c = false := by simpa using h
  rw [trim, dropWhile_isSpace_of_no_space h, dropWhile_isSpace_of_no_space hrev, List.reverse_reverse]

/-- A literal is read back as its word (R94). -/
theorem parseToken_renderWord (w : Word) : parseToken (renderWord w) = some w := by
  rw [parseToken, trim_of_no_space fun c hc => isSpace_of_mem_renderWord hc, parseInt_renderWord, Option.bind_some,
    wordOfInt_toInt]

/-! ### Literals separated by commas (R94) -/

theorem splitAt_of_notMem {sep : Char} {t : List Char} (h : sep ∉ t) : splitAt sep t = [t] := by
  induction t with
  | nil => rfl
  | cons c t ih =>
    obtain ⟨hc, ht⟩ := not_or.1 (mt List.mem_cons.2 h)
    simp [splitAt, Ne.symm hc, ih ht]

theorem splitAt_append_sep {sep : Char} {t : List Char} (rest : List Char) (h : sep ∉ t) :
    splitAt sep (t ++ sep :: rest) = t :: splitAt sep rest := by
  induction t with
  | nil => simp [splitAt]
  | cons c t ih =>
    obtain ⟨hc, ht⟩ := not_or.1 (mt List.mem_cons.2 h)
    simp [splitAt, Ne.symm hc, ih ht]

theorem splitAt_renderProgram {p : List Word} (h : p ≠ []) : splitAt ',' (renderProgram p) = p.map renderWord := by
  induction p with
  | nil => exact absurd rfl h
  | cons w ws ih =>
    cases ws with
    | nil => exact splitAt_of_notMem (comma_notMem_renderWord w)
    | cons w' ws =>
      calc splitAt ',' (renderWord w ++ ',' :: renderProgram (w' :: ws))
          = renderWord w :: splitAt ',' (renderProgram (w' :: ws)) :=
            splitAt_append_sep _ (comma_notMem_renderWord w)
        _ = renderWord w :: (w' :: ws).map renderWord := by rw [ih (List.cons_ne_nil _ _)]

theorem parseTokens_map_renderWord (p : List Word) : parseTokens (p.map renderWord) = some p := by
  induction p with
  | nil => rfl
  | cons w ws ih => simp [parseTokens, parseToken_renderWord, ih]

/-- Settles O58: the text splits at its commas into the literals it was written from, and each is read back. -/
theorem programTextRoundTrip : Obligations.ProgramTextRoundTrip := by
  intro p hp
  rw [parseProgram, splitAt_renderProgram hp, parseTokens_map_renderWord]

/-! ### Pseudo-instructions (R66) -/

/-- A listing of one usable line that defines no label is assembled to that line's words. -/
theorem assemble_singleton (line : AsmLine) {ws : List Word} (hl : definedLabels [line] = [])
    (ht : labelTable 0 [line] = []) (hw : line.wellFormed [] = true) (he : emitLine [] line = some ws) :
    assemble [line] = some ws := by
  simp [assemble, asmWellFormed, emitLines, hl, ht, hw, he]

theorem emit2_of_operands {k : Operand → Operand → Instr} {table : List (Label × Nat)} {a b : AsmOperand}
    {x y : Operand} (ha : asmOperand table a = some x) (hb : asmOperand table b = some y) :
    emit2 table k a b = some (encode (k x y)) := by
  simp [emit2, ha, hb]

theorem emit3_of_operands {k : Operand → Operand → Target → Instr} {table : List (Label × Nat)} {a b : AsmOperand}
    {c : AsmValue} {x y : Operand} {z : Target} (ha : asmOperand table a = some x) (hb : asmOperand table b = some y)
    (hc : asmTarget table c = some z) : emit3 table k a b c = some (encode (k x y z)) := by
  simp [emit3, ha, hb, hc]

theorem asmOperand_imm_toInt (table : List (Label × Nat)) (w : Word) :
    asmOperand table (.imm (.num w.toInt)) = some ⟨.immediate, w⟩ := by
  simp [asmOperand, valueWord, wordOfInt_toInt]

theorem asmOperand_pos_toInt (table : List (Label × Nat)) (w : Word) :
    asmOperand table (.pos (.num w.toInt)) = some ⟨.position, w⟩ := by
  simp [asmOperand, valueWord, wordOfInt_toInt]

theorem asmTarget_toInt (table : List (Label × Nat)) (w : Word) :
    asmTarget table (.num w.toInt) = some ⟨.position, w⟩ := by
  simp [asmTarget, valueWord, wordOfInt_toInt]

theorem asmOperand_imm_zero (table : List (Label × Nat)) : asmOperand table (.imm (.num 0)) = some ⟨.immediate, 0⟩ :=
  asmOperand_imm_toInt table 0

theorem asmOperand_imm_one (table : List (Label × Nat)) : asmOperand table (.imm (.num 1)) = some ⟨.immediate, 1⟩ :=
  asmOperand_imm_toInt table 1

theorem wellFormed_num_toInt (labels : List Label) (w : Word) : (AsmValue.num w.toInt).wellFormed labels = true :=
  decide_eq_true (inInt64_toInt w)

/-- Settles O59: each pseudo-instruction is a jump or an ADD (R66), whose operands are words. -/
theorem pseudoInstructionsExpandAsListed : Obligations.PseudoInstructionsExpandAsListed := by
  intro v d
  have hv := wellFormed_num_toInt [] v
  have hd := wellFormed_num_toInt [] d
  refine ⟨?_, ?_, ?_, ?_, ?_, ?_⟩
  · exact assemble_singleton _ rfl rfl hv
      (emit2_of_operands (asmOperand_imm_one _) (asmOperand_imm_toInt _ v))
  · exact assemble_singleton _ rfl rfl hv
      (emit2_of_operands (asmOperand_imm_one _) (asmOperand_pos_toInt _ v))
  · exact assemble_singleton _ rfl rfl (Bool.and_eq_true_iff.2 ⟨hv, hd⟩)
      (emit3_of_operands (asmOperand_pos_toInt _ v) (asmOperand_imm_zero _) (asmTarget_toInt _ d))
  · exact assemble_singleton _ rfl rfl (Bool.and_eq_true_iff.2 ⟨hv, hd⟩)
      (emit3_of_operands (asmOperand_imm_toInt _ v) (asmOperand_imm_zero _) (asmTarget_toInt _ d))
  · exact assemble_singleton _ rfl rfl hd
      (emit3_of_operands (asmOperand_imm_zero _) (asmOperand_imm_zero _) (asmTarget_toInt _ d))
  · exact assemble_singleton _ rfl rfl rfl (emit2_of_operands (asmOperand_imm_one _) (asmOperand_imm_zero _))

end Sys2Proof.Machine
end

section
/-! PROOFS. The engine cycle (R69 to R78): which instruction a step executes, the faults of its fetch, what STEP
answers, and when a run ends. -/

namespace Sys2Proof.Machine

/-! ### The argument words of a fetch (R72, R73) -/

/-- A head and the argument words in their places make the instruction: the converse of `Head.complete_ok`. -/
theorem complete_instrHead_of_args {ε : Type} {arg : Nat → Except ε Word} {i : Instr}
    (h : ∀ k (hk : k < i.args.length), arg (k + 1) = .ok i.args[k]) : (instrHead i).complete arg = .ok i := by
  cases i with
  | halt => rfl
  | inp a | out a =>
    have h1 : arg 1 = .ok a.raw := h 0 (by simp [Instr.args])
    simp [instrHead, Head.complete, bind, Except.bind, pure, Except.pure, h1]
  | jnz a b | jz a b =>
    have h1 : arg 1 = .ok a.raw := h 0 (by simp [Instr.args])
    have h2 : arg 2 = .ok b.raw := h 1 (by simp [Instr.args])
    simp [instrHead, Head.complete, bind, Except.bind, pure, Except.pure, h1, h2]
  | add a b c | mul a b c | lt a b c | eq a b c =>
    have h1 : arg 1 = .ok a.raw := h 0 (by simp [Instr.args])
    have h2 : arg 2 = .ok b.raw := h 1 (by simp [Instr.args])
    have h3 : arg 3 = .ok c.raw := h 2 (by simp [Instr.args])
    simp [instrHead, Head.complete, bind, Except.bind, pure, Except.pure, h1, h2, h3]

theorem Head.arity_le_three (h : Head) : h.arity ≤ 3 := by
  cases h <;> simp [Head.arity]

/-- The first argument word that cannot be had decides the error: the words are asked for in order. -/
theorem Head.complete_of_first_error {ε : Type} {arg : Nat → Except ε Word} {h : Head} {k : Nat} {e : ε}
    (hk : 1 ≤ k) (hle : k ≤ h.arity) (hbefore : ∀ j, 1 ≤ j → j < k → ∃ v, arg j = .ok v)
    (he : arg k = .error e) : h.complete arg = .error e := by
  have h3 := Head.arity_le_three h
  obtain rfl | rfl | rfl : k = 1 ∨ k = 2 ∨ k = 3 := by omega
  · cases h with
    | halt => cases hle
    | add | mul | inp | out | jnz | jz | lt | eq => simp [Head.complete, bind, Except.bind, he]
  · obtain ⟨v1, h1⟩ := hbefore 1 (by decide) (by decide)
    cases h with
    | halt | inp | out => simp [Head.arity] at hle
    | add | mul | jnz | jz | lt | eq => simp [Head.complete, bind, Except.bind, h1, he]
  · obtain ⟨v1, h1⟩ := hbefore 1 (by decide) (by decide)
    obtain ⟨v2, h2⟩ := hbefore 2 (by decide) (by decide)
    cases h with
    | halt | inp | out | jnz | jz => simp [Head.arity] at hle
    | add | mul | lt | eq => simp [Head.complete, bind, Except.bind, h1, h2, he]

/-- Memory that holds an instruction's words at `ip` has that instruction fetched. -/
theorem fetchInstr_of_holdsAt {s : State} {i : Instr} (h : HoldsAt s.mem s.ip.toNat (encode i)) :
    fetchInstr s = .ok i := by
  have hw : s.mem.read s.ip.toNat = some (BitVec.ofNat 64 i.head) := h 0 (Nat.succ_pos _)
  have hd : decodeHead (BitVec.ofNat 64 i.head) = .ok (instrHead i) :=
    headNumber_instrHead i ▸ decodeHead_headNumber (instrHead i)
  rw [fetchInstr_of_decodeHead_ok hw hd]
  exact complete_instrHead_of_args fun k hk => memRead_ok.2 (h (k + 1) (Nat.succ_lt_succ hk))

/-- Settles O15: words that decode are the encoding of the instruction, so the fetch finds it. -/
theorem stepRunsDecodedInstruction : Obligations.StepRunsDecodedInstruction := by
  intro s ws i hr hdec hmem
  have hws : ws = encode i := (encodeOfDecode ws i [] hdec).trans (List.append_nil _)
  exact step_of_fetch_ok hr (fetchInstr_of_holdsAt (hws ▸ hmem))

/-! ### The faults of a fetch (R71, R73) -/

/-- Settles O18: the fetch is at `ip`, which is the offending address. -/
theorem fetchBeyondMemoryFaults : Obligations.FetchBeyondMemoryFaults :=
  fun _ hr hlen => step_of_fetch_error hr (fetchInstr_of_len_le_ip hlen)

/-- Settles O19: of the argument words asked for in order, the one at `MEM_LEN` is the first that is not there. -/
theorem missingArgumentWordFaults : Obligations.MissingArgumentWordFaults := by
  intro s w h k hr hw hd hk hle hlen
  refine step_of_fetch_error hr ?_
  rw [fetchInstr_of_decodeHead_ok hw hd]
  refine Head.complete_of_first_error hk hle (fun j _ hjk => ?_) (memRead_error.2 ⟨?_, ?_⟩)
  · exact ⟨_, memRead_ok.2 (Memory.read_of_inRange ((Memory.inRange_iff _ _).2 (by omega)))⟩
  · rw [Bool.eq_false_iff, ne_eq, Memory.inRange_iff]
    omega
  · rw [addressTrap, ← Nat.cast_add, BitVec.ofInt_natCast]

/-! ### What STEP answers (R70, R75, R76) -/

theorem step_of_not_running {s : State} (hr : s.status ≠ .running) : step s = .next s := by
  simp [step, hr]

theorem hostOp_step {s t : State} (h : step s = .next t) :
    hostOp .step s = .next (.stepped (stepResponse s t), t) := by
  simp [hostOp, h]

theorem stepResponse_of_not_running {s t : State} (hr : s.status ≠ .running) : stepResponse s t = .stop := by
  simp [stepResponse, hr]

theorem stepResponse_of_faulted {s t : State} (hr : s.status = .running) (ht : t.status = .faulted) :
    stepResponse s t = .fault := by
  simp [stepResponse, hr, ht]

theorem stepResponse_of_blocked {s t : State} (hr : s.status = .running) (ht : t.status = .blocked) :
    stepResponse s t = .stop := by
  simp [stepResponse, hr, ht]

/-- CONTINUE is the answer of a RUNNING engine that neither faults nor blocks. -/
theorem stepResponse_eq_cont {s t : State} :
    stepResponse s t = .cont ↔ s.status = .running ∧ t.status ≠ .faulted ∧ t.status ≠ .blocked := by
  by_cases hr : s.status = .running
  · cases ht : t.status <;> simp [stepResponse, hr, ht]
  · simp [stepResponse, hr]

/-- Settles O16: the step leaves the engine, and the response of an engine that is not RUNNING is STOP. -/
theorem stoppedEngineStepChangesNothing : Obligations.StoppedEngineStepChangesNothing := by
  intro s hr
  have hstep := step_of_not_running hr
  exact ⟨hstep, by rw [hostOp_step hstep, stepResponse_of_not_running hr]⟩

/-- A step that leaves a RUNNING engine FAULTED has taken a fault and done nothing else. -/
theorem step_faulted {s t : State} (hr : s.status = .running) (h : step s = .next t) (ht : t.status = .faulted) :
    ∃ e : Trap, e.code ≠ .noFault ∧ t = takeFault e s := by
  obtain ⟨hnr, -⟩ | ⟨-, he⟩ | ⟨-, i, -, hx⟩ := step_effect h
  · exact absurd hr hnr
  · exact he
  · obtain hs | ⟨c, -, -, rfl⟩ | ⟨-, hf⟩ := hx.status_cases
    · simp [hs, hr] at ht
    · cases ht
    · simp [hf] at ht

/-- Settles O20: a step that faults is fault entry alone, which writes the status and the record. -/
theorem faultsArePrecise : Obligations.FaultsArePrecise := by
  intro s t hr h ht
  have hanswer : hostOp .step s = .next (.stepped .fault, t) := by
    rw [hostOp_step h, stepResponse_of_faulted hr ht]
  obtain ⟨e, he, rfl⟩ := step_faulted hr h ht
  exact ⟨rfl, rfl, ⟨rfl, rfl, rfl⟩, rfl, rfl, he, hanswer⟩

/-- An input read with no unread input has no other effect than to block (R84). -/
theorem Effect.eq_blocked_of_starved {c : Target} {s t : State} (h : Effect (.inp c) s t)
    (hn : inputAvailable s = false) : t = s.withStatus .blocked := by
  cases h with
  | block => rfl
  | input _ _ _ _ hv =>
    have hlt : s.inCur < s.inq.length := (List.getElem?_eq_some_iff.1 hv).1
    exact absurd hlt (of_decide_eq_false hn)
  | result _ _ _ _ _ hl => cases hl
  | taken _ _ _ hi | notTaken _ _ hi => simp at hi
  | output _ _ hi | halted hi => cases hi

/-- A step that fetches an instruction and does not fault has one of the instruction's effects. -/
theorem effect_of_step {s t : State} {i : Instr} (hr : s.status = .running) (hi : fetchInstr s = .ok i)
    (h : step s = .next t) (ht : t.status ≠ .faulted) : Effect i s t := by
  obtain ⟨e, -, rfl⟩ | hx := exec_next ((step_of_fetch_ok hr hi).symm.trans h)
  · exact absurd rfl ht
  · exact hx

theorem exec_halt (s : State) : exec .halt s = .next ((s.withStatus .finished).withIp (s.ip + 1)) := rfl

/-- Settles O22: of the effects of an instruction only a starved IN blocks, and HALT leaves an engine that is not
RUNNING. -/
theorem stepResponses : Obligations.StepResponses := by
  intro s t i hr hi h ht
  have hx := effect_of_step hr hi h ht
  refine ⟨?_, fun hfed => ?_, ?_⟩
  · rintro ⟨⟨c, rfl⟩, hn⟩
    obtain rfl := hx.eq_blocked_of_starved hn
    exact ⟨by rw [hostOp_step h, stepResponse_of_blocked hr rfl], rfl, rfl⟩
  · have hb : t.status ≠ .blocked := by
      obtain hs | ⟨c, hc, hn, -⟩ | ⟨-, hf⟩ := hx.status_cases
      · simp [hs, hr]
      · exact absurd ⟨⟨c, hc⟩, hn⟩ hfed
      · simp [hf]
    rw [hostOp_step h, stepResponse_eq_cont.2 ⟨hr, ht, hb⟩]
  · rintro rfl
    rw [step_of_fetch_ok hr hi, exec_halt] at h
    cases h
    exact (stoppedEngineStepChangesNothing _ (by simp)).2

/-! ### When a run ends (R77, R78) -/

theorem runFuel_of_cont {s t : State} (n : Nat) (h : step s = .next t) (hc : stepResponse s t = .cont) :
    runFuel (n + 1) s = runFuel n t := by
  simp [runFuel, h, hc]

theorem runFuel_of_not_cont {s t : State} (n : Nat) (h : step s = .next t) (hc : stepResponse s t ≠ .cont) :
    runFuel (n + 1) s = .next (some t.status, t) := by
  simp [runFuel, h, hc]

/-- A step that does not answer CONTINUE leaves an engine that is not RUNNING. -/
theorem not_running_of_not_cont {s t : State} (h : step s = .next t) (hc : stepResponse s t ≠ .cont) :
    t.status ≠ .running := by
  intro ht
  by_cases hr : s.status = .running
  · exact hc (stepResponse_eq_cont.2 ⟨hr, by simp [ht], by simp [ht]⟩)
  · cases (step_of_not_running hr).symm.trans h
    exact hr ht

/-- A run that ends has ended at some step, whose answer does not look at the fuel that is left. -/
theorem runFuel_ended {n : Nat} {s t : State} {st : Status} (m : Nat) (h : runFuel n s = .next (some st, t)) :
    t.status = st ∧ st ≠ .running ∧ runFuel (n + m) s = .next (some st, t) := by
  induction n generalizing s with
  | zero => cases h
  | succ n ih =>
    obtain ⟨u, hu⟩ := step_total s
    rw [Nat.succ_add]
    by_cases hc : stepResponse s u = .cont
    · rw [runFuel_of_cont n hu hc] at h
      rw [runFuel_of_cont (n + m) hu hc]
      exact ih h
    · rw [runFuel_of_not_cont n hu hc] at h
      cases h
      exact ⟨rfl, not_running_of_not_cont hu hc, runFuel_of_not_cont (n + m) hu hc⟩

/-- Settles O55: the end of a run by induction on its fuel; an engine that is not RUNNING ends it with its first
step, which answers STOP. -/
theorem runEndsStoppedWhateverTheFuel : Obligations.RunEndsStoppedWhateverTheFuel := by
  refine ⟨fun n m s t st h => runFuel_ended m h, fun n s hr => ?_⟩
  exact runFuel_of_not_cont n (step_of_not_running hr) (by simp [stepResponse_of_not_running hr])

end Sys2Proof.Machine
end

section
/-! PROOFS. Arithmetic (41_arithmetic.md): the range check of an exact result, the sum and the product written, and
the frame of the instructions with a write target. -/

namespace Sys2Proof.Machine

/-! ### The range check (R81) -/

/-- `wrap64` is R81's formula. -/
theorem wrap64_toInt (r : Int) :
    (wrap64 r).toInt = (r + 9223372036854775808) % 18446744073709551616 - 9223372036854775808 := by
  rw [wrap64, BitVec.toInt_ofInt, Int.bmod_def]
  split <;> omega

theorem narrow_ok_wrap64 {p : OverflowPolicy} {r : Int} (h : InInt64 r ∨ p = .wrap) : narrow p r = .ok (wrap64 r) := by
  by_cases hr : InInt64 r
  · exact narrow_of_inInt64 p hr
  · obtain rfl := h.resolve_left hr
    exact if_neg hr

theorem narrow_fault_of_not_inInt64 {r : Int} (h : ¬ InInt64 r) :
    narrow .fault r = .error ⟨.overflow, wrap64 r⟩ := if_neg h

/-! ### The result of ADD, MUL, LT and EQ (R80) -/

section
variable {a b : Operand} {c : Target} {f : Int → Int → Except Trap Word} {s : State} {x y : Word}

/-- With operands, target and result known, the result is written, `ip` moves past the four words, and nothing else
changes. -/
theorem finish_writeResult_wrote {r : Word} (hwf : s.mem.wf) (hx : resolve a s = .ok x) (hy : resolve b s = .ok y)
    (hc : s.mem.inRange (targetAddress c) = true) (hr : f x.toInt y.toInt = .ok r) :
    ∃ t, finish s (writeResult a b c f s) = .next t ∧ Wrote s t (targetAddress c) r ∧ t.ip = s.ip + 4 ∧
      SameChannel s t ∧ SameRegisters s t := by
  obtain ⟨m, hm, hw⟩ := writeResult_of_result hx hy hc hr
  have hwrote : Wrote s ((s.withMem m).withIp (s.ip + 4)) (targetAddress c) r :=
    ⟨Memory.write_len hm, Memory.read_write_same hwf hm, fun _ hb => Memory.read_write_other hm hb⟩
  exact ⟨_, by rw [hw, finish_ok], hwrote, rfl, ⟨rfl, rfl, rfl⟩, ⟨rfl, rfl, rfl, rfl, rfl⟩⟩

/-- A result that cannot be computed is the fault, its operands resolved and its target in range. -/
theorem finish_writeResult_of_result_error {e : Trap} (hx : resolve a s = .ok x) (hy : resolve b s = .ok y)
    (hc : s.mem.inRange (targetAddress c) = true) (hr : f x.toInt y.toInt = .error e) :
    finish s (writeResult a b c f s) = .next (takeFault e s) := by
  rw [writeResult_of_resolved hx hy hc, hr]
  rfl

end

/-- ADD and MUL are the range check of an exact result `r` of their operands, written at the target. -/
theorem exec_arithmetic {a b : Operand} {c : Target} {i : Instr} {r x y : Int} (s : State)
    (hi : i = .add a b c ∧ r = x + y ∨ i = .mul a b c ∧ r = x * y) :
    ∃ f, exec i s = finish s (writeResult a b c f s) ∧ f x y = narrow s.config.overflow r := by
  obtain ⟨rfl, rfl⟩ | ⟨rfl, rfl⟩ := hi
  · exact ⟨fun x y => narrow s.config.overflow (x + y), rfl, rfl⟩
  · exact ⟨fun x y => narrow s.config.overflow (x * y), rfl, rfl⟩

/-- Settles O31: the range check answers the wrapped result, which in `Int64` is the result itself, or it raises
OVERFLOW. -/
theorem arithmeticFollowsTheOverflowPolicy : Obligations.ArithmeticFollowsTheOverflowPolicy := by
  intro a b c s x y i r hwf hx hy hc hi
  obtain ⟨f, hexec, hf⟩ := exec_arithmetic s hi
  rw [hexec]
  refine ⟨wrap64 r, wrap64_toInt r, toInt_ofInt, fun hfits => ?_, fun hout hpolicy => ?_⟩
  · exact finish_writeResult_wrote hwf hx hy hc (hf.trans (narrow_ok_wrap64 hfits))
  · rw [hpolicy, narrow_fault_of_not_inInt64 hout] at hf
    exact finish_writeResult_of_result_error hx hy hc hf

/-- ADD and MUL with an exact result that is a word: it is written, whatever the overflow policy. -/
theorem exec_arithmetic_wrote {a b : Operand} {c : Target} {i : Instr} {s : State} {x y r : Word} (hwf : s.mem.wf)
    (hx : resolve a s = .ok x) (hy : resolve b s = .ok y) (hc : s.mem.inRange (targetAddress c) = true)
    (hi : i = .add a b c ∧ r.toInt = x.toInt + y.toInt ∨ i = .mul a b c ∧ r.toInt = x.toInt * y.toInt) :
    ∃ t, exec i s = .next t ∧ Wrote s t (targetAddress c) r ∧ t.ip = s.ip + 4 ∧ SameChannel s t ∧
      SameRegisters s t := by
  obtain ⟨f, hexec, hf⟩ := exec_arithmetic s hi
  rw [hexec]
  exact finish_writeResult_wrote hwf hx hy hc (hf.trans (narrow_toInt _ r))

/-- Settles O29: the sum is the exact result of ADD (R82). -/
theorem addWritesSum : Obligations.AddWritesSum := by
  intro a b c s x y r hwf hx hy hc hr
  exact exec_arithmetic_wrote hwf hx hy hc (.inl ⟨rfl, hr⟩)

/-- Settles O30: the product is the exact result of MUL (R83). -/
theorem mulWritesProduct : Obligations.MulWritesProduct := by
  intro a b c s x y r hwf hx hy hc hr
  exact exec_arithmetic_wrote hwf hx hy hc (.inr ⟨rfl, hr⟩)

/-! ### The frame of the instructions with a write target (R82, R83, R84, R89, R90) -/

theorem Effect.inq_eq {i : Instr} {s t : State} (h : Effect i s t) : t.inq = s.inq := by
  cases h <;> rfl

theorem Effect.inCur_eq {i : Instr} {s t : State} (h : Effect i s t) (hi : ∀ c, i ≠ .inp c) : t.inCur = s.inCur := by
  cases h with
  | input c _ _ hc => exact absurd hc (hi c)
  | result | block | output | taken | notTaken | halted => rfl

theorem Effect.outlog_eq {i : Instr} {s t : State} (h : Effect i s t) (hi : ∀ a, i ≠ .out a) :
    t.outlog = s.outlog := by
  cases h with
  | output a _ ha => exact absurd ha (hi a)
  | result | input | block | taken | notTaken | halted => rfl

/-- No effect touches the fault record: only fault entry writes it (R106). -/
theorem Effect.fault_record_eq {i : Instr} {s t : State} (h : Effect i s t) :
    t.faultCode = s.faultCode ∧ t.faultIp = s.faultIp ∧ t.faultInfo = s.faultInfo := by
  cases h <;> exact ⟨rfl, rfl, rfl⟩

/-- An effect changes memory at most at the instruction's write target, and keeps `MEM_LEN` (R35). -/
theorem Effect.mem_frame {i : Instr} {a : Int} {s t : State} (h : Effect i s t) (ha : writeAddress i = some a) :
    t.mem.len = s.mem.len ∧ ∀ b, b ≠ a → t.mem.read b = s.mem.read b := by
  obtain hm | ⟨a', r, ha', hm⟩ := h.mem_cases
  · rw [hm]
    exact ⟨rfl, fun _ _ => rfl⟩
  · obtain rfl : a' = a := Option.some.inj (ha'.symm.trans ha)
    exact ⟨Memory.write_len hm, fun _ hb => Memory.read_write_other hm hb⟩

/-- Settles O45: fault entry leaves all but the status and the record, and an effect of an instruction with a write
target is framed register by register; such an instruction is no OUT and no HALT. -/
theorem storingInstructionsFrame : Obligations.StoringInstructionsFrame := by
  intro i a s t ha h
  obtain ⟨e, -, rfl⟩ | hx := exec_next h
  · exact ⟨rfl, fun _ _ => rfl, rfl, rfl, rfl, fun _ => rfl, .inr (.inl rfl), fun hf => absurd rfl hf⟩
  · obtain ⟨hlen, hread⟩ := hx.mem_frame ha
    have hnotOut : ∀ o, i ≠ .out o := by rintro o rfl; cases ha
    have hstatus : t.status = s.status ∨ t.status = .faulted ∨ t.status = .blocked ∧ ∃ c, i = .inp c := by
      obtain hs | ⟨c, hc, -, rfl⟩ | ⟨rfl, -⟩ := hx.status_cases
      · exact .inl hs
      · exact .inr (.inr ⟨rfl, c, hc⟩)
      · cases ha
    exact ⟨hlen, hread, hx.inq_eq, hx.outlog_eq hnotOut, hx.config_eq, hx.inCur_eq, hstatus,
      fun _ => hx.fault_record_eq⟩

end Sys2Proof.Machine
end

section
/-! PROOFS. The input channel (R22, R24, R25, R84, R86): IN with an unread value, IN without one and its retry, the
order in which inputs are consumed; and the frame of the instructions without a write target. -/

namespace Sys2Proof.Machine

/-! ### IN by what it finds at the cursor (R24, R25, R84) -/

theorem nextInput_of_unread {s : State} {v : Word} (hv : s.inq[s.inCur]? = some v) :
    nextInput s = some (v, s.withCursor (s.inCur + 1)) := by
  simp [nextInput, hv]

theorem nextInput_of_starved {s : State} (h : s.inq.length ≤ s.inCur) : nextInput s = none := by
  simp [nextInput, List.getElem?_eq_none h]

theorem readInput_of_starved {c : Target} {s : State} (hc : s.mem.inRange (targetAddress c) = true)
    (hn : nextInput s = none) : readInput c s = .ok (s.withStatus .blocked) := by
  simp [readInput, bind, Except.bind, pure, Except.pure, checkTarget_ok.2 hc, hn]

/-- The execute phase of IN with a value to read: the cursor past it, one write, `ip` past the two words. -/
theorem readInput_of_unread {c : Target} {s : State} {v : Word} (hc : s.mem.inRange (targetAddress c) = true)
    (hv : nextInput s = some (v, s.withCursor (s.inCur + 1))) :
    ∃ m, s.mem.write (targetAddress c) v = some m ∧
      readInput c s = .ok (((s.withCursor (s.inCur + 1)).withMem m).withIp (s.ip + 2)) := by
  have hw := memWrite_of_inRange v (s := s.withCursor (s.inCur + 1)) hc
  refine ⟨_, Memory.write_of_inRange v hc, ?_⟩
  simp only [readInput, bind, Except.bind, checkTarget_ok.2 hc, hv, hw]
  rfl

/-- Settles O35: the target passes its check, and there is no next input. -/
theorem starvedInputBlocks : Obligations.StarvedInputBlocks := by
  intro c s hc hend
  rw [exec, execInp, readInput_of_starved hc (nextInput_of_starved hend), finish_ok]

theorem Wrote.of_write {s t : State} {a : Int} {r : Word} (hwf : s.mem.wf) (hm : s.mem.write a r = some t.mem) :
    Wrote s t a r :=
  ⟨Memory.write_len hm, Memory.read_write_same hwf hm, fun _ hb => Memory.read_write_other hm hb⟩

/-- Settles O34: the value at the cursor is the next input, and storing it is one write. -/
theorem inputStoresNextValue : Obligations.InputStoresNextValue := by
  intro c s v hwf hc hv
  obtain ⟨m, hm, hread⟩ := readInput_of_unread hc (nextInput_of_unread hv)
  have hexec : exec (.inp c) s = .next (((s.withCursor (s.inCur + 1)).withMem m).withIp (s.ip + 2)) := by
    rw [exec, execInp, hread, finish_ok]
  exact ⟨_, hexec, Wrote.of_write hwf hm, rfl, rfl, rfl, rfl, ⟨rfl, rfl, rfl, rfl, rfl⟩⟩

/-! ### The retry of a blocked IN (R97, R117) -/

/-- A fetch depends on memory and `ip` only. -/
theorem fetchInstr_congr {s t : State} (hm : s.mem = t.mem) (hip : s.ip = t.ip) : fetchInstr s = fetchInstr t := by
  simp only [fetchInstr, hip, memRead_congr hm]

/-- The wait leaves no trace: an input accepted after the read has blocked leaves the engine it would have left
before. -/
theorem hostOp_addInput_after_block {s : State} {v : Word} (hr : s.status = .running)
    (hroom : s.config.inCap ≠ some s.inq.length) :
    hostOp (.addInput v) (s.withStatus .blocked) = .next (.ok, s.withInput (s.inq ++ [v])) := by
  have hresumed : ((s.withStatus .blocked).withInput (s.inq ++ [v])).withStatus .running =
      s.withInput (s.inq ++ [v]) := State.ext_fields rfl rfl rfl hr.symm rfl rfl rfl rfl rfl rfl
  have hpush : pushInput v (s.withStatus .blocked) = some (s.withInput (s.inq ++ [v])) :=
    (pushInput_of_room (s := s.withStatus .blocked) hroom).trans (congrArg some hresumed)
  rw [hostOp, hpush]

/-- Settles O39: the push leaves memory and `ip`, so the retry fetches the same IN and finds the pushed value at the
cursor. -/
theorem blockedInputResumesWithPushedValue : Obligations.BlockedInputResumesWithPushedValue := by
  intro s c v hwf hr hi hc hcur hroom
  have hblock : step s = .next (s.withStatus .blocked) :=
    (step_of_fetch_ok hr hi).trans (starvedInputBlocks c s hc hcur.ge)
  have hretry : fetchInstr (s.withInput (s.inq ++ [v])) = .ok (.inp c) := (fetchInstr_congr rfl rfl).trans hi
  have hresume : step (s.withInput (s.inq ++ [v])) = exec (.inp c) (s.withInput (s.inq ++ [v])) :=
    step_of_fetch_ok hr hretry
  have hnext : (s.inq ++ [v])[s.inCur]? = some v := by simp [hcur]
  obtain ⟨t, hexec, hwrote, htCur, htIp, htInq, htLog, -, htStatus, -⟩ :=
    inputStoresNextValue c (s.withInput (s.inq ++ [v])) v hwf hc hnext
  exact ⟨_, _, t, hblock, rfl, hostOp_addInput_after_block hr hroom, hr, rfl,
    hresume.trans hexec, hwrote, htIp, htCur, htInq, htLog, htStatus.trans hr⟩

/-! ### The order of the inputs (R22, R86) -/

/-- An effect leaves the cursor, or it is an IN that moves it by one and writes the value it stood at. -/
theorem Effect.inCur_cases {i : Instr} {s t : State} (h : Effect i s t) :
    t.inCur = s.inCur ∨
    ∃ c v, i = .inp c ∧ t.inCur = s.inCur + 1 ∧ s.inq[s.inCur]? = some v ∧
      s.mem.write (targetAddress c) v = some t.mem := by
  cases h with
  | input c v m hi hv hm => exact .inr ⟨c, v, hi, rfl, hv, hm⟩
  | result | block | output | taken | notTaken | halted => exact .inl rfl

/-- Settles O37: a stopped engine and a fault leave the channel, and of the effects only a fed IN moves the cursor. -/
theorem inputsAreConsumedInOrder : Obligations.InputsAreConsumedInOrder := by
  intro s t hwf h
  obtain ⟨-, rfl⟩ | ⟨-, e, -, rfl⟩ | ⟨-, i, hi, hx⟩ := step_effect h
  · exact ⟨rfl, .inl rfl⟩
  · exact ⟨rfl, .inl rfl⟩
  · refine ⟨hx.inq_eq, ?_⟩
    obtain hcur | ⟨c, v, rfl, hcur, hv, hm⟩ := hx.inCur_cases
    · exact .inl hcur
    · exact .inr ⟨c, v, hi, hcur, hv, Memory.read_write_same hwf hm⟩

/-! ### The frame of the instructions without a write target (R85, R87, R88, R91) -/

theorem Effect.mem_eq {i : Instr} {s t : State} (h : Effect i s t) (ha : writeAddress i = none) : t.mem = s.mem := by
  obtain hm | ⟨a, r, ha', -⟩ := h.mem_cases
  · exact hm
  · cases ha.symm.trans ha'

/-- Settles O46: fault entry leaves all but the status and the record, and an effect of an instruction without a write
target is framed register by register; such an instruction is no IN. -/
theorem nonStoringInstructionsFrame : Obligations.NonStoringInstructionsFrame := by
  intro i s t ha h
  obtain ⟨e, -, rfl⟩ | hx := exec_next h
  · exact ⟨rfl, rfl, rfl, rfl, fun _ => rfl, .inr (.inl rfl), fun hf => absurd rfl hf⟩
  · have hnotIn : ∀ c, i ≠ .inp c := by rintro c rfl; cases ha
    have hstatus : t.status = s.status ∨ t.status = .faulted ∨ t.status = .finished ∧ i = .halt := by
      obtain hs | ⟨c, hc, -, -⟩ | ⟨hi, hf⟩ := hx.status_cases
      · exact .inl hs
      · exact absurd hc (hnotIn c)
      · exact .inr (.inr ⟨hf, hi⟩)
    exact ⟨hx.mem_eq ha, hx.inq_eq, hx.inCur_eq hnotIn, hx.config_eq, hx.outlog_eq, hstatus,
      fun _ => hx.fault_record_eq⟩

end Sys2Proof.Machine
end

section
/-! PROOFS. JNZ and JZ with a known condition (43_control_transfer.md): the taken jump, the one that falls through, and
the taken jump to a negative value. -/

namespace Sys2Proof.Machine

/-! ### A jump by its condition and the sign of its target (R87, R88; D8, D27) -/

section
variable {k : Int → Bool} {a b : Operand} {s : State} {x y : Word}

/-- No hypothesis on `b`: a jump that is not taken does not look at its target (D27). -/
theorem jumpIf_of_not_taken (b : Operand) (hx : resolve a s = .ok x) (hk : k x.toInt = false) :
    jumpIf k a b s = .ok (s.withIp (s.ip + 3)) := by
  simp [jumpIf, bind, Except.bind, pure, Except.pure, hx, hk]

theorem jumpIf_of_negative_target (hx : resolve a s = .ok x) (hk : k x.toInt = true) (hy : resolve b s = .ok y)
    (hneg : y.toInt < 0) : jumpIf k a b s = .error ⟨.address, y⟩ := by
  simp [jumpIf, bind, Except.bind, hx, hk, hy, hneg, addressTrap_toInt]

end

/-- Settles O40: the two ways of a jump, taken when the condition is not 0. -/
theorem jnzJumpsWhenNotZero : Obligations.JnzJumpsWhenNotZero := by
  intro a b s x hx
  refine ⟨fun h0 y hy hnn => ?_, fun h0 => ?_⟩
  · rw [exec, execJnz, jumpIf_of_taken hx (decide_eq_true h0) hy hnn, finish_ok]
  · rw [exec, execJnz, jumpIf_of_not_taken b hx (decide_eq_false (not_not_intro h0)), finish_ok]

/-- Settles O41: the two ways of a jump, taken when the condition is 0. -/
theorem jzJumpsWhenZero : Obligations.JzJumpsWhenZero := by
  intro a b s x hx
  refine ⟨fun h0 y hy hnn => ?_, fun h0 => ?_⟩
  · rw [exec, execJz, jumpIf_of_taken hx (decide_eq_true h0) hy hnn, finish_ok]
  · rw [exec, execJz, jumpIf_of_not_taken b hx (decide_eq_false h0), finish_ok]

/-- Settles O42: both jumps, once taken and their target read, fault on its sign. -/
theorem negativeJumpTargetFaults : Obligations.NegativeJumpTargetFaults := by
  intro a b s x y hx hy hneg
  refine ⟨fun h0 => ?_, fun h0 => ?_⟩
  · rw [exec, execJnz, jumpIf_of_negative_target hx (decide_eq_true h0) hy hneg, finish_error]
  · rw [exec, execJz, jumpIf_of_negative_target hx (decide_eq_true h0) hy hneg, finish_error]

end Sys2Proof.Machine
end

section
/-! PROOFS. Comparison (44_comparison.md): the truth word of a relation of the operands, written at the target. -/

namespace Sys2Proof.Machine

/-- A decided proposition is written as 1 or 0. -/
theorem truthWord_decide (p : Prop) [Decidable p] : truthWord (decide p) = if p then 1 else 0 := by
  simp only [truthWord, decide_eq_true_eq]

/-- Settles O32: the operands reach the comparison as signed numbers, and the truth word of `<` is the result. -/
theorem ltWritesSignedComparison : Obligations.LtWritesSignedComparison := by
  intro a b c s x y hwf hx hy hc
  rw [exec, execLt]
  exact finish_writeResult_wrote hwf hx hy hc (congrArg Except.ok (truthWord_decide (x.toInt < y.toInt)))

/-- Settles O33: EQ compares the operands as signed numbers, and equal numbers are the same word. -/
theorem eqWritesEquality : Obligations.EqWritesEquality := by
  intro a b c s x y hwf hx hy hc
  have hresult : truthWord (decide (x.toInt = y.toInt)) = if x = y then 1 else 0 := by
    simp only [truthWord_decide, BitVec.toInt_inj]
  rw [exec, execEq]
  exact finish_writeResult_wrote hwf hx hy hc (congrArg Except.ok hresult)

end Sys2Proof.Machine
end

section
/-! PROOFS. Halt (45_halt.md): the status becomes FINISHED and `ip` moves past the halt word. -/

namespace Sys2Proof.Machine

/-- Settles O44: the equation of HALT, which has no operand and so no case that faults. -/
theorem haltFinishes : Obligations.HaltFinishes := exec_halt

end Sys2Proof.Machine
end

section
/-! PROOFS. The host interface (46_host_interface.md): LOAD, READ, REPLACE and the queries, and that every operation of
the port keeps the invariant. -/

namespace Sys2Proof.Machine

/-! ### The invariant -/

/-- A BLOCKED engine is excluded: its unread input would make it RUNNING (R27). -/
theorem State.Inv.withInput_append {s : State} {v : Word} (h : s.Inv) (hs : s.status ≠ .blocked)
    (hc : s.config.inCap ≠ some s.inq.length) : (s.withInput (s.inq ++ [v])).Inv :=
  { h with
    cursor := by
      have hle := h.cursor
      simp only [State.withInput_inCur, State.withInput_inq, List.length_append, List.length_singleton]
      omega
    inputFits := fun n hn => by
      have hle := h.inputFits n hn
      have hne : s.inq.length ≠ n := fun heq => hc (heq ▸ hn)
      simp only [State.withInput_inq, List.length_append, List.length_singleton]
      omega
    blockedStarved := fun hb => absurd hb hs }

/-- A push may be read as first unblocking the engine and then appending, and then each update keeps the invariant. -/
theorem State.Inv.pushInput {s t : State} {v : Word} (h : s.Inv) (hp : pushInput v s = some t) : t.Inv := by
  obtain ⟨hroom, ⟨hb, rfl⟩ | ⟨hb, rfl⟩⟩ := pushInput_some hp
  · have hrun : (s.withStatus .running).Inv := h.withStatus (by simp [hb]) (by decide) (fun hr => by cases hr)
    exact hrun.withInput_append (by simp) hroom
  · exact h.withInput_append hb hroom

/-- A FAULTED engine keeps its record (R105), and any other takes the fault. -/
theorem State.Inv.takeHostFault {s : State} {e : Trap} (h : s.Inv) (he : e.code ≠ .noFault) :
    (takeHostFault e s).Inv := by
  by_cases hf : s.status = .faulted
  · rwa [takeHostFault_of_faulted e s hf]
  · rw [takeHostFault_of_not_faulted e s hf]
    exact h.takeFault he

/-- Settles O7, by what a host operation can leave: each update has its rule, a step keeps the invariant (O6), and so
does a run, by induction on its fuel. -/
theorem hostOperationKeepsInvariant : Obligations.HostOperationKeepsInvariant := by
  intro op s t r hs h
  obtain rfl | ⟨a, v, m, hm, rfl⟩ | ⟨v, hv⟩ | ⟨a, rfl⟩ | hstep | ⟨n, o, hrun⟩ := hostOp_next h
  · exact hs
  · exact hs.withMem_of_write hm
  · exact hs.pushInput hv
  · exact hs.takeHostFault (addressTrap_code a)
  · exact stepKeepsInvariant s t hs hstep
  · exact runFuel_keeps stepKeepsInvariant hs hrun

/-! ### LOAD -/

/-- LOAD refuses exactly the programs that are longer than `MAX_MEM_LEN` (R93). -/
theorem loadEngine_eq_none {c : Config} {p : List Word} : loadEngine c p = none ↔ c.maxMemLen < p.length := by
  unfold loadEngine
  split
  · exact iff_of_true rfl ‹_›
  · exact iff_of_false (by simp) ‹_›

/-- Settles O3: the list of engines changes as `systemLoad` says, and the length of the program decides which way. -/
theorem loadRefusesTooLongProgram : Obligations.LoadRefusesTooLongProgram := by
  intro c p es
  rw [systemOp_load]
  obtain ⟨hl, he⟩ | ⟨s, hl, he⟩ := systemLoad_cases c p es
  · have hlong : c.maxMemLen < p.length := loadEngine_eq_none.1 hl
    exact ⟨fun _ => by rw [he], fun hle => absurd hlong (Nat.not_lt.2 hle)⟩
  · refine ⟨fun hlong => ?_, fun _ => ⟨s, hl, by rw [he]⟩⟩
    cases hl.symm.trans (loadEngine_eq_none.2 hlong)

/-! ### READ and REPLACE -/

theorem hostOp_read_of_some {a w : Word} {s : State} (h : s.mem.read a.toInt = some w) :
    hostOp (.read a) s = .next (.word w, s) := by
  simp only [hostOp, h]

/-- An access out of range takes the host's fault, and READ and REPLACE take the same (R95, R96). -/
theorem hostOp_read_of_not_inRange {a : Word} {s : State} (h : ¬ s.mem.inRange a.toInt = true) :
    hostOp (.read a) s = .next (.fault, takeHostFault ⟨.address, a⟩ s) := by
  simp only [hostOp, Memory.read_of_not_inRange h, hostAccessFault, addressTrap_toInt]

theorem hostOp_replace_of_not_inRange {a : Word} (v : Word) {s : State} (h : ¬ s.mem.inRange a.toInt = true) :
    hostOp (.replace a v) s = .next (.fault, takeHostFault ⟨.address, a⟩ s) := by
  simp only [hostOp, Memory.write_of_not_inRange v h, hostAccessFault, addressTrap_toInt]

theorem hostOp_replace_of_some {a v : Word} {s : State} {m : Memory} (h : s.mem.write a.toInt v = some m) :
    hostOp (.replace a v) s = .next (.ok, s.withMem m) := by
  simp only [hostOp, h]

/-- Settles O50: the range decides between the word and the fault, and the status whether the fault is recorded. -/
theorem hostReadAnswersOrFaults : Obligations.HostReadAnswersOrFaults := by
  intro a s
  rw [← Memory.inRange_iff]
  refine ⟨fun hin => ?_, fun hout hnf => ?_, fun hout hf => ?_⟩
  · exact ⟨_, Memory.read_of_inRange hin, hostOp_read_of_some (Memory.read_of_inRange hin)⟩
  · rw [hostOp_read_of_not_inRange hout, takeHostFault_of_not_faulted _ _ hnf]
  · rw [hostOp_read_of_not_inRange hout, takeHostFault_of_faulted _ _ hf]

/-- Settles O51: in range the write only replaces memory, by a memory that differs at the address; out of range REPLACE
takes the fault of READ. -/
theorem hostReplaceWritesOneWord : Obligations.HostReplaceWritesOneWord := by
  intro a v s hwf
  refine ⟨fun hin => ?_, fun hout => ?_⟩
  · have hm := Memory.write_of_inRange v hin
    exact ⟨_, hostOp_replace_of_some hm, Wrote.of_write hwf hm, rfl, ⟨rfl, rfl, rfl⟩, ⟨rfl, rfl, rfl, rfl, rfl⟩⟩
  · have hnot : ¬ s.mem.inRange a.toInt = true := Bool.eq_false_iff.1 hout
    rw [hostOp_replace_of_not_inRange v hnot, hostOp_read_of_not_inRange hnot]

/-! ### The queries -/

/-- Settles O53: the equation of each query (R98 to R102). -/
theorem queriesChangeNothing : Obligations.QueriesChangeNothing :=
  fun _ => ⟨rfl, rfl, rfl, rfl, rfl⟩

end Sys2Proof.Machine
end

section
/-! PROOFS. Exceptions (60_exceptions.md): FAULTED is terminal, and the first fault record stays (R105). -/

namespace Sys2Proof.Machine

/-! ### Runs -/

/-- A run of `n + m` steps is a run of `n` steps followed by one of `m`. -/
theorem coreRun_add {M : Host.Core} {n m : Nat} {s t : M.State} (h : M.run (n + m) s = .next t) :
    ∃ u, M.run n s = .next u ∧ M.run m u = .next t := by
  induction n generalizing s with
  | zero => exact ⟨s, rfl, by rwa [Nat.zero_add] at h⟩
  | succ n ih =>
    rw [Nat.succ_add] at h
    cases hs : M.step s with
    | next v =>
      rw [coreRun_succ hs] at h ⊢
      exact ih h
    | fault | refused => simp [Host.Core.run, hs] at h

theorem step_keeps_faulted (s t : State) (hf : s.status = .faulted) (h : step s = .next t) : t.status = .faulted := by
  cases (step_of_not_running (by simp [hf])).symm.trans h
  exact hf

/-- Settles O56: had the first `n` steps ended FAULTED, the other `m` would have kept it. -/
theorem safeRunIsSafeThroughout : Obligations.SafeRunIsSafeThroughout := by
  rintro n m s ⟨t, hrun, hhealthy⟩
  obtain ⟨u, hu, hut⟩ := coreRun_add hrun
  exact ⟨u, hu, fun hf => hhealthy (run_keeps step_keeps_faulted hf hut)⟩

/-! ### Host operations on a FAULTED engine -/

/-- A RUN of an engine that is not RUNNING leaves it as it is, however long it is followed (R70, R77). -/
theorem hostOp_run_of_not_running (n : Nat) {s : State} (hr : s.status ≠ .running) :
    ∃ r, hostOp (.run n) s = .next (r, s) := by
  cases n with
  | zero => exact ⟨.running, rfl⟩
  | succ n => exact ⟨.ran s.status, by simp only [hostOp, runEndsStoppedWhateverTheFuel.2 n s hr]⟩

/-- All that a host operation can do to a FAULTED engine: REPLACE a word of memory, or append to the input queue
(R105, D14). -/
theorem hostOp_of_faulted {op : HostOp} {s t : State} {r : HostResponse} (hf : s.status = .faulted)
    (h : hostOp op s = .next (r, t)) :
    t = s ∨ (∃ a v m, op = .replace a v ∧ t = s.withMem m) ∨ (∃ v q, op = .addInput v ∧ t = s.withInput q) := by
  have hr : s.status ≠ .running := by simp [hf]
  cases op with
  | read a =>
    by_cases hin : s.mem.inRange a.toInt = true
    · cases (hostOp_read_of_some (Memory.read_of_inRange hin)).symm.trans h
      exact .inl rfl
    · cases (hostOp_read_of_not_inRange hin).symm.trans h
      exact .inl (takeHostFault_of_faulted _ s hf)
  | replace a v =>
    by_cases hin : s.mem.inRange a.toInt = true
    · cases (hostOp_replace_of_some (Memory.write_of_inRange v hin)).symm.trans h
      exact .inr (.inl ⟨a, v, _, rfl, rfl⟩)
    · cases (hostOp_replace_of_not_inRange v hin).symm.trans h
      exact .inl (takeHostFault_of_faulted _ s hf)
  | addInput v =>
    cases hp : pushInput v s with
    | none =>
      simp only [hostOp, hp] at h
      cases h
      exact .inl rfl
    | some u =>
      simp only [hostOp, hp] at h
      cases h
      obtain ⟨-, ⟨hb, -⟩ | ⟨-, rfl⟩⟩ := pushInput_some hp
      · simp [hf] at hb
      · exact .inr (.inr ⟨v, _, rfl, rfl⟩)
  | readOutputs | lastOutput | finished | blocked | faultStatus =>
    cases h
    exact .inl rfl
  | step =>
    cases (hostOp_step (step_of_not_running hr)).symm.trans h
    exact .inl rfl
  | run n =>
    obtain ⟨r', hrun⟩ := hostOp_run_of_not_running n hr
    cases hrun.symm.trans h
    exact .inl rfl

/-- A READ or REPLACE out of range answers FAULT, whatever the engine's status (R95, R96). -/
theorem hostOp_access_answers_fault {op : HostOp} {s t : State} {r : HostResponse} {a v : Word}
    (h : hostOp op s = .next (r, t)) (hop : op = .read a ∨ op = .replace a v)
    (hout : s.mem.inRange a.toInt = false) : r = .fault := by
  have hnot : ¬ s.mem.inRange a.toInt = true := Bool.eq_false_iff.1 hout
  obtain rfl | rfl := hop
  · cases (hostOp_read_of_not_inRange hnot).symm.trans h
    rfl
  · cases (hostOp_replace_of_not_inRange v hnot).symm.trans h
    rfl

/-- Settles O54: a FAULTED engine is the same afterwards, up to its memory after REPLACE and its input queue after
ADD_INPUT, and neither of these is in the frame. -/
theorem faultedEngineKeepsItsRecord : Obligations.FaultedEngineKeepsItsRecord := by
  intro op s t r hf h
  have hanswer : ∀ a v, op = .read a ∨ op = .replace a v → s.mem.inRange a.toInt = false → r = .fault :=
    fun _ _ => hostOp_access_answers_fault h
  obtain rfl | ⟨a, v, m, hop, rfl⟩ | ⟨v, q, hop, rfl⟩ := hostOp_of_faulted hf h
  · exact ⟨hf, rfl, rfl, rfl, rfl, rfl, rfl, hanswer, fun _ _ => rfl⟩
  · exact ⟨hf, rfl, rfl, rfl, rfl, rfl, rfl, hanswer, fun hne _ => absurd hop (hne a v)⟩
  · exact ⟨hf, rfl, rfl, rfl, rfl, rfl, rfl, hanswer, fun _ hne => absurd hop (hne v)⟩

end Sys2Proof.Machine
end

section
/-! PROOFS. Reset (70_reset_and_hazards.md): LOAD is the only reset (R118), so what it constructs is the reset state
with the parameters and the memory of the program. -/

namespace Sys2Proof.Machine

/-! ### The engine LOAD constructs -/

/-- A program that fits is loaded into an engine that differs from the reset state in its parameters and its memory
alone (R118). -/
theorem loadEngine_of_le {c : Config} {p : List Word} (h : p.length ≤ c.maxMemLen) :
    loadEngine c p = some { State.reset with config := c, mem := Memory.ofWords p } :=
  if_neg (Nat.not_lt.2 h)

theorem loadEngine_eq_some {c : Config} {p : List Word} {s : State} (h : loadEngine c p = some s) :
    p.length ≤ c.maxMemLen ∧ s = { State.reset with config := c, mem := Memory.ofWords p } := by
  have hle : p.length ≤ c.maxMemLen := by
    refine Nat.not_lt.1 fun hlong => ?_
    cases h.symm.trans (loadEngine_eq_none.2 hlong)
  exact ⟨hle, Option.some.inj (h.symm.trans (loadEngine_of_le hle))⟩

/-- Memory holds a loaded program word for word (R31). -/
theorem Memory.ofWords_holdsAt (p : List Word) : HoldsAt (Memory.ofWords p) 0 p := by
  intro k hk
  have hin : (Memory.ofWords p).inRange ((0 + k : Nat) : Int) = true :=
    (Memory.inRange_iff _ _).2 ⟨Int.natCast_nonneg _, by simpa [Memory.ofWords] using hk⟩
  exact Memory.read_eq_some.2 ⟨hin, Memory.lookup_cellsFrom 0 p k hk⟩

/-- Settles O2: the registers are those of the reset state, memory holds the program, and the empty program has no word
for the first fetch at `ip` 0. -/
theorem loadSetsEveryResetValue : Obligations.LoadSetsEveryResetValue := by
  intro c p h
  refine ⟨_, loadEngine_of_le h, rfl, rfl, Memory.ofWords_holdsAt p, rfl, rfl, rfl, rfl, rfl, rfl, rfl, rfl, ?_⟩
  rintro rfl
  exact fetchBeyondMemoryFaults _ rfl (Nat.le_refl 0)

/-- Settles O5: as for the reset state (O4), but for the parameters, which are in range by hypothesis, and the memory,
which is canonical and fits. -/
theorem loadedEngineMeetsInvariant : Obligations.LoadedEngineMeetsInvariant := by
  intro c p s hc h
  obtain ⟨hle, rfl⟩ := loadEngine_eq_some h
  exact { resetMeetsInvariant with
    config := hc
    memory := Memory.ofWords_wf p
    memoryFits := hle
    inputFits := fun n _ => Nat.zero_le n
    outputFits := fun n _ => Nat.zero_le n }

/-- Settles O1: the empty program fits, and its memory is the empty one of `State.reset`. -/
theorem resetIsLoadOfEmptyProgram : Obligations.ResetIsLoadOfEmptyProgram :=
  loadEngine_of_le (Nat.zero_le _)

end Sys2Proof.Machine
end
